-- ==== Sys2Proof/Word.lean ====
section
/-!
DEFINITION. The word types of the NTE: command words, limbs, bytes of the random port, window offsets and
operand register numbers.
-/

namespace Sys2Proof

/-- A 32-bit word of the register window, and a command word (20_memory.md R53, 30_encoding.md R80). -/
abbrev Word := BitVec 32

/-- One 32-bit limb of an operand register's magnitude (10_state.md R21). -/
abbrev Limb := BitVec 32

/-- A byte of the random port or of a bus lane (00_scope.md R12, 20_memory.md R61). -/
abbrev Byte := BitVec 8

/-- A byte offset into the register window (20_memory.md R50). -/
abbrev Offset := BitVec 16

/-- The number of an operand register, `r0` to `r15` (10_state.md R20). -/
abbrev Reg := Fin 16

end Sys2Proof
end

