-- ==== Sys2Proof/Config.lean ====
section
/-!
DEFINITION. What an implementation fixes (00_scope.md R7), the spec's constants, and the free values of the
random port.
-/

namespace Sys2Proof.Config

/-- The parameters the spec leaves open (00_scope.md R7; 93_implementation_defined.md P1 to P4). State carries
them as read-only data, so a claim about every state is a claim about every parameter value (log entry 1). -/
structure Params where
  /-- `NLIMB`: 32-bit limbs in a register's magnitude. -/
  nlimb : Nat
  /-- `PG_LEN`: length of a PRIMEGEN candidate in bytes. -/
  pgLen : Nat
  /-- `NTE_BASE`: base of the register window in the host's address space (20_memory.md R50). -/
  nteBase : Nat
  /-- `NTE_IRQ_LINE`: where the platform wires IRQ (60_exceptions.md R168). -/
  irqLine : Nat
  deriving DecidableEq, Repr

/-- `W = 32 · NLIMB`, the magnitude width in bits (00_scope.md R7). -/
abbrev Params.width (p : Params) : Nat := 32 * p.nlimb

/-- The constraints of 00_scope.md R7 on NLIMB and PG_LEN. -/
abbrev Params.Valid (p : Params) : Prop :=
  1 ≤ p.nlimb ∧ p.nlimb ≤ 960 ∧ 129 ≤ p.pgLen ∧ p.pgLen ≤ min (p.width / 8) 65535

/-- The reference values NLIMB = 128 and PG_LEN = 129 (00_scope.md R7). DESIGN CHOICE (log entry 1): the two
platform parameters, for which the spec gives no reference, are 0 here. -/
def reference : Params := { nlimb := 128, pgLen := 129, nteBase := 0, irqLine := 0 }

/-- `NREG = 16` (00_scope.md R7). -/
def nreg : Nat := 16

/-- `PG_ROUNDS = 20`, fixed by the source (00_scope.md R7). -/
def pgRounds : Nat := 20

/-- `WCAP = 100000`, fixed by the source (00_scope.md R7). -/
def wcap : Nat := 100000

/-- The constant of the ID register (10_state.md R30). -/
def idValue : Word := 0x4E540001

/-- FREE VALUE (log entry 3): the answer of the random port to its `n`-th draw, wherever the state lists no
answer for it. It has no body, so nothing can be proved about its value (00_scope.md R12). -/
opaque freeDraw : Nat → Nat

end Sys2Proof.Config
end

