-- ==== Sys2Proof/Syntax.lean ====
section
/-!
DEFINITION. The commands of the NTE: one constructor per row of the opcode table (30_encoding.md R85), and the
pseudo-commands of R91 as the commands they expand to.
-/

namespace Sys2Proof

/-- A command, its operands in the order of the assembly syntax (30_encoding.md R90). -/
inductive Instr where
  /-- `ADD rd, rs1, rs2` (40_arith.md R101). -/
  | add (rd rs1 rs2 : Reg)
  /-- `SUB rd, rs1, rs2` (40_arith.md R102). -/
  | sub (rd rs1 rs2 : Reg)
  /-- `MUL rd, rs1, rs2` (40_arith.md R103). -/
  | mul (rd rs1 rs2 : Reg)
  /-- `DIVMOD rd, rd2, rs1, rs2`: quotient, remainder, dividend, divisor (40_arith.md R104). -/
  | divmod (rd rd2 rs1 rs2 : Reg)
  /-- `CMP rd, rs1, rs2` (40_arith.md R105). -/
  | cmp (rd rs1 rs2 : Reg)
  /-- `MOV rd, rs1` (40_arith.md R106). -/
  | mov (rd rs1 : Reg)
  /-- `LDI rd, imm16` (40_arith.md R107). -/
  | ldi (rd : Reg) (imm16 : BitVec 16)
  /-- `MODMUL rd, rs1, rs2, rs3`: result, a, b, modulus (41_modexp.md R121). -/
  | modmul (rd rs1 rs2 rs3 : Reg)
  /-- `MODEXP rd, rs1, rs2, rs3`: result, base, exponent, modulus (41_modexp.md R122). -/
  | modexp (rd rs1 rs2 rs3 : Reg)
  /-- `MRTEST rd, rs1, imm16`: result, n, rounds (42_primality.md R133). -/
  | mrtest (rd rs1 : Reg) (imm16 : BitVec 16)
  /-- `PRIMEGEN rd` (42_primality.md R135). -/
  | primegen (rd : Reg)
  /-- `EGCD rd, rd2, rd3, rs1, rs2`: gcd, x, y, a, b (43_euclid.md R151). -/
  | egcd (rd rd2 rd3 rs1 rs2 : Reg)
  /-- `MODINV rd, rs1, rs2`: inverse, a, m (43_euclid.md R152). -/
  | modinv (rd rs1 rs2 : Reg)
  deriving DecidableEq, Repr

/-- `CLR rd` (30_encoding.md R91). -/
def Instr.clr (rd : Reg) : Instr := .ldi rd 0

/-- `SQRMOD rd, rs, rm` (30_encoding.md R91). -/
def Instr.sqrmod (rd rs rm : Reg) : Instr := .modmul rd rs rs rm

/-- `NOP` (30_encoding.md R91). -/
def Instr.nop : Instr := .mov 0 0

end Sys2Proof
end

