-- ==== Sys2Proof/WellFormed.lean ====
section
/-!
DEFINITION. Which commands are well formed: the destination fields of one command differ (30_encoding.md R86(3),
R88). Every other condition on a command is carried by the types of its operands: a register number is below 16
(R83) and an immediate has 16 bits (R84).
-/

namespace Sys2Proof

/-- The check of 30_encoding.md R88: no two destination fields are equal. -/
def Instr.wf : Instr → Bool
  | .add _ _ _ => true
  | .sub _ _ _ => true
  | .mul _ _ _ => true
  | .divmod rd rd2 _ _ => rd != rd2
  | .cmp _ _ _ => true
  | .mov _ _ => true
  | .ldi _ _ => true
  | .modmul _ _ _ _ => true
  | .modexp _ _ _ _ => true
  | .mrtest _ _ _ => true
  | .primegen _ => true
  | .egcd rd rd2 rd3 _ _ => rd != rd2 && rd != rd3 && rd2 != rd3
  | .modinv _ _ _ => true

end Sys2Proof
end

