-- ==== Sys2Proof/Decode.lean ====
section
/-!
DEFINITION. The opcode map (30_encoding.md R85), the decoder (R86, R87), and the encoder written from the same
formats (R81, R82). Both are total. The decoder rejects by name.
-/

namespace Sys2Proof

/-- The names of the rows of 30_encoding.md R85. -/
inductive Op where
  | add | sub | mul | divmod | cmp | mov | ldi | modmul | modexp | mrtest | primegen | egcd | modinv
  deriving DecidableEq, Repr

/-- One row of the opcode map: a word selects it when `(w &&& mask) = bits` (30_encoding.md R85). -/
structure OpcodeRow where
  op : Op
  bits : Word
  mask : Word
  deriving DecidableEq, Repr

/-- The opcode map of 30_encoding.md R85, row by row. -/
def opcodeMap : List OpcodeRow :=
  [ ⟨.add, 0x00000001, 0xFFF000FF⟩,
    ⟨.sub, 0x00000002, 0xFFF000FF⟩,
    ⟨.mul, 0x00000003, 0xFFF000FF⟩,
    ⟨.divmod, 0x00000004, 0xF0F000FF⟩,
    ⟨.cmp, 0x00000005, 0xFFF000FF⟩,
    ⟨.mov, 0x00000006, 0xFFFF00FF⟩,
    ⟨.ldi, 0x00000007, 0x0000F0FF⟩,
    ⟨.modmul, 0x00000010, 0xFF0000FF⟩,
    ⟨.modexp, 0x00000011, 0xFF0000FF⟩,
    ⟨.mrtest, 0x00000020, 0x000000FF⟩,
    ⟨.primegen, 0x00000021, 0xFFFFF0FF⟩,
    ⟨.egcd, 0x00000030, 0x00F000FF⟩,
    ⟨.modinv, 0x00000031, 0xFFF000FF⟩ ]

/-- Why a word is illegal (30_encoding.md R87). Both are reported as E_ILLEGAL. -/
inductive Illegal where
  /-- The opcode `w[7:0]` is in no row of the map. -/
  | unknownOpcode
  /-- A field the command does not use is nonzero. -/
  | unusedField
  deriving DecidableEq, Repr

/-! ### Fields of a word (30_encoding.md R81, R82) -/

/-- `opcode = w[7:0]`. -/
def opcodeField (w : Word) : BitVec 8 := w.extractLsb' 0 8

/-- The 4-bit register field whose lowest bit is bit `lo`. -/
def regField (w : Word) (lo : Nat) : Reg := (w.extractLsb' lo 4).toFin

/-- `rd = w[11:8]`. -/
def rdField (w : Word) : Reg := regField w 8
/-- `rs1 = w[15:12]`. -/
def rs1Field (w : Word) : Reg := regField w 12
/-- `rs2 = w[19:16]`. -/
def rs2Field (w : Word) : Reg := regField w 16
/-- `rs3 = w[23:20]`. -/
def rs3Field (w : Word) : Reg := regField w 20
/-- `rd2 = w[27:24]`. -/
def rd2Field (w : Word) : Reg := regField w 24
/-- `rd3 = w[31:28]`. -/
def rd3Field (w : Word) : Reg := regField w 28
/-- `imm16 = w[31:16]`. -/
def immField (w : Word) : BitVec 16 := w.extractLsb' 16 16

/-! ### Decoding -/

/-- The command a word of the given row stands for: its operands read from the row's fields. -/
def operandsOf (op : Op) (w : Word) : Instr :=
  match op with
  | .add => .add (rdField w) (rs1Field w) (rs2Field w)
  | .sub => .sub (rdField w) (rs1Field w) (rs2Field w)
  | .mul => .mul (rdField w) (rs1Field w) (rs2Field w)
  | .divmod => .divmod (rdField w) (rd2Field w) (rs1Field w) (rs2Field w)
  | .cmp => .cmp (rdField w) (rs1Field w) (rs2Field w)
  | .mov => .mov (rdField w) (rs1Field w)
  | .ldi => .ldi (rdField w) (immField w)
  | .modmul => .modmul (rdField w) (rs1Field w) (rs2Field w) (rs3Field w)
  | .modexp => .modexp (rdField w) (rs1Field w) (rs2Field w) (rs3Field w)
  | .mrtest => .mrtest (rdField w) (rs1Field w) (immField w)
  | .primegen => .primegen (rdField w)
  | .egcd => .egcd (rdField w) (rd2Field w) (rd3Field w) (rs1Field w) (rs2Field w)
  | .modinv => .modinv (rdField w) (rs1Field w) (rs2Field w)

/-- The row whose opcode is `w[7:0]` (30_encoding.md R86(1)). -/
def rowOf (w : Word) : Option OpcodeRow :=
  opcodeMap.find? fun row => opcodeField row.bits == opcodeField w

/-- Decoding, steps (1) and (2) of 30_encoding.md R86. Step (3), coinciding destinations, is `Instr.wf`. -/
def decode (w : Word) : Except Illegal Instr :=
  match rowOf w with
  | none => .error .unknownOpcode
  | some row => if w &&& row.mask = row.bits then .ok (operandsOf row.op w) else .error .unusedField

/-! ### Encoding -/

/-- Format R: the six register fields above the opcode (30_encoding.md R81). -/
def formatR (opcode : BitVec 8) (rd rs1 rs2 rs3 rd2 rd3 : Reg) : Word :=
  BitVec.ofFin (w := 4) rd3 ++ BitVec.ofFin (w := 4) rd2 ++ BitVec.ofFin (w := 4) rs3 ++
    BitVec.ofFin (w := 4) rs2 ++ BitVec.ofFin (w := 4) rs1 ++ BitVec.ofFin (w := 4) rd ++ opcode

/-- Format I: an immediate, a source and a destination above the opcode (30_encoding.md R82). -/
def formatI (opcode : BitVec 8) (rd rs1 : Reg) (imm16 : BitVec 16) : Word :=
  imm16 ++ BitVec.ofFin (w := 4) rs1 ++ BitVec.ofFin (w := 4) rd ++ opcode

/-- The word of a command: every operand in its field and every other field zero (30_encoding.md R90). -/
def encode : Instr → Word
  | .add rd rs1 rs2 => formatR 0x01 rd rs1 rs2 0 0 0
  | .sub rd rs1 rs2 => formatR 0x02 rd rs1 rs2 0 0 0
  | .mul rd rs1 rs2 => formatR 0x03 rd rs1 rs2 0 0 0
  | .divmod rd rd2 rs1 rs2 => formatR 0x04 rd rs1 rs2 0 rd2 0
  | .cmp rd rs1 rs2 => formatR 0x05 rd rs1 rs2 0 0 0
  | .mov rd rs1 => formatR 0x06 rd rs1 0 0 0 0
  | .ldi rd imm16 => formatI 0x07 rd 0 imm16
  | .modmul rd rs1 rs2 rs3 => formatR 0x10 rd rs1 rs2 rs3 0 0
  | .modexp rd rs1 rs2 rs3 => formatR 0x11 rd rs1 rs2 rs3 0 0
  | .mrtest rd rs1 imm16 => formatI 0x20 rd rs1 imm16
  | .primegen rd => formatR 0x21 rd 0 0 0 0 0
  | .egcd rd rd2 rd3 rs1 rs2 => formatR 0x30 rd rs1 rs2 0 rd2 rd3
  | .modinv rd rs1 rs2 => formatR 0x31 rd rs1 rs2 0 0 0

/-! ### Words as bytes -/

/-- The byte on lane `k` of a bus that carries word `w`: bits `[8k+7 : 8k]` (20_memory.md R61). -/
def laneOf (w : Word) (k : Nat) : Byte := w.extractLsb' (8 * k) 8

/-- The word whose bytes, lowest address first, are the given ones (20_memory.md R61). A command is exactly
four bytes long (30_encoding.md R80), so any other number of bytes is no word. -/
def wordOfLanes : List Byte → Option Word
  | [b0, b1, b2, b3] => some (b3 ++ b2 ++ b1 ++ b0)
  | _ => none

/-- The instruction the decoder reads from an opcode-table word of `nbits` bits (bit 0 least significant, the bits
above `nbits` zero): its four bytes are laid out lowest first and decoded. -/
def decodeTableWord (nbits w : Nat) : Option Instr :=
  if nbits ≤ 32 ∧ w < 2 ^ 32 then
    match wordOfLanes ((List.range 4).map (laneOf (BitVec.ofNat 32 w))) with
    | some word => (decode word).toOption
    | none => none
  else none

end Sys2Proof
end

