-- ==== Sys2Proof/Machine/State.lean ====
section
/-!
DEFINITION. The state of the NTE as plain data (10_state.md), the inputs that reach it from outside, the reasons a
step can stop, and the state after reset (R41).
-/

namespace Sys2Proof.Machine

/-- The error codes a command can report (60_exceptions.md R161). E_NONE is the absence of an error. -/
inductive ErrorCode where
  /-- E_ILLEGAL, 1: unknown opcode or nonzero unused field. -/
  | illegal
  /-- E_OPERAND, 2: two destination fields are equal. -/
  | operand
  /-- E_DOMAIN, 3: an operand outside its command's domain. -/
  | domain
  /-- E_DIVZERO, 4: a zero modulus or divisor. -/
  | divZero
  /-- E_OVERFLOW, 5: a result of magnitude at least `2^W`. -/
  | overflow
  /-- E_NOINVERSE, 6: `gcd(a, m) ≠ 1`. -/
  | noInverse
  /-- E_PGCAP, 7: PGCAP candidates rejected. -/
  | pgCap
  deriving DecidableEq, Repr

/-- What acceptance latches (10_state.md R26(3)): the command word, the value of every source register the command
uses, each under its register's number, and PGCAP. Log entry 8. -/
structure Latch where
  word : Word
  sources : List (Reg × Int)
  cap : Word
  deriving DecidableEq, Repr

/-- The engine is idle or has exactly one command in progress (10_state.md R25). -/
inductive Engine where
  | idle
  | busy (command : Latch)
  deriving DecidableEq, Repr

/-- The width of a host access. Only 32 bits is legal (20_memory.md R53). -/
inductive Width where
  | w8 | w16 | w32 | w64
  deriving DecidableEq, Repr

/-- One event of the total order of steps (20_memory.md R62) that is decided outside the NTE. -/
inductive Input where
  /-- The host reads the window (00_scope.md R13). -/
  | read (width : Width) (offset : Offset)
  /-- The host writes the window (00_scope.md R13). Only a 32-bit write carries its value anywhere. -/
  | write (width : Width) (offset : Offset) (value : Word)
  /-- The hardware reset input RST (70_reset_and_hazards.md R190). -/
  | resetPin
  /-- The engine takes its turn (00_scope.md R6: it steps only when it is busy). -/
  | engineTurn
  deriving DecidableEq, Repr

/-- The random-byte port (00_scope.md R8). `answers` are its answers to the coming draws, in draw order, and `drawn`
counts the draws made. Past the end of `answers` the answers are `Config.freeDraw`. The model's own field, log
entry 3. -/
structure Port where
  answers : List Nat
  drawn : Nat
  deriving DecidableEq, Repr

/-- The state of the NTE and, in the last three fields, of its surroundings. -/
structure State where
  /-- The parameters, fixed at build; PARAM and PGLEN read them (10_state.md R31, R32). -/
  params : Config.Params
  /-- `L[i][j]`: the limbs of every operand register, limb 0 first (10_state.md R21). -/
  limbs : Vector (List Limb) 16
  /-- SIGN: bit `i` is the sign of register `ri` (10_state.md R38). -/
  sign : BitVec 16
  /-- The engine (10_state.md R25) and the latch (R26). STATUS.BUSY is read from it (R34). -/
  engine : Engine
  /-- `k`, the candidates drawn so far by the PRIMEGEN in progress (10_state.md R28). -/
  candidates : Nat
  /-- CTRL.IE (10_state.md R33). -/
  ie : Bool
  /-- STATUS.DONE (10_state.md R34). -/
  done : Bool
  /-- STATUS.ERR and STATUS.ERRCODE: no error, or the error reported (10_state.md R34, log entry 6). -/
  error : Option ErrorCode
  /-- STATUS.CMDOVR (10_state.md R34). -/
  cmdovr : Bool
  /-- ERRCMD (10_state.md R36). -/
  errcmd : Word
  /-- PGCAP (10_state.md R37). -/
  pgcap : Word
  /-- The random-byte port (00_scope.md R8). -/
  port : Port
  /-- The events still to come, oldest first. The model's own field, log entry 2. -/
  inputs : List Input
  /-- The word the latest host read returned. The model's own field, log entry 4. -/
  lastRead : Option Word
  deriving DecidableEq, Repr

/-- Why the machine stops. -/
inductive Fault where
  /-- A host access that is not 32 bits wide or not aligned (20_memory.md R53 to R55). Raised by the step of a
  host read or write. Safe: the spec gives the access no effect on the NTE and no value, and the NTE would go on
  with the next access (log entry 5). -/
  | busError
  deriving DecidableEq, Repr

/-- Why a step has no meaning. -/
inductive Refusal where
  /-- An instruction without a meaning in this model. Raised only by an arm of `exec`; no arm raises it now. Safe. -/
  | notModelled (mnemonic : String)
  deriving DecidableEq, Repr

/-- The state after reset of an NTE built with parameters `p` (10_state.md R41). -/
def State.resetWith (p : Config.Params) : State where
  params := p
  limbs := Vector.replicate 16 (List.replicate p.nlimb 0)
  sign := 0
  engine := .idle
  candidates := 0
  ie := false
  done := false
  error := none
  cmdovr := false
  errcmd := 0
  pgcap := 0
  port := { answers := [], drawn := 0 }
  inputs := []
  lastRead := none

/-- The NTE of the reference parameters, right after reset (10_state.md R41, 00_scope.md R7). -/
def State.reset : State := State.resetWith Config.reference

end Sys2Proof.Machine
end

