-- ==== Sys2Proof/Machine/Operands.lean ====
section
/-!
DEFINITION. Operand registers and operands: the value of a register (10_state.md R21, R22), the registers each
command reads and writes (30_encoding.md R85), and the latched inputs a running command sees (00_scope.md R11).
-/

namespace Sys2Proof.Machine

/-! ### Magnitudes (10_state.md R21, 20_memory.md R57) -/

/-- `Σ L[j] · 2^(32·j)`, limb 0 least significant. -/
def limbsValue : List Limb → Nat
  | [] => 0
  | l :: ls => l.toNat + 2 ^ 32 * limbsValue ls

/-- The `n` limbs of `v`, least significant first. Exact when `v < 2^(32·n)`. -/
def toLimbs : Nat → Nat → List Limb
  | 0, _ => []
  | n + 1, v => BitVec.ofNat 32 v :: toLimbs n (v / 2 ^ 32)

/-- `SIGN` with bit `i` set to `b`. -/
def setSignBit (sign : BitVec 16) (i : Reg) (b : Bool) : BitVec 16 :=
  if b then sign ||| BitVec.twoPow 16 i.val else sign &&& ~~~(BitVec.twoPow 16 i.val)

/-! ### Registers -/

/-- `SIGN[i]` (10_state.md R21). -/
def State.signBit (s : State) (r : Reg) : Bool := s.sign.getLsbD r.val

/-- The magnitude of a register (10_state.md R21). -/
def State.magnitude (s : State) (r : Reg) : Nat := limbsValue s.limbs[r]

/-- `x[i]`, the value of an operand register (10_state.md R21). A zero magnitude is 0 at either sign (R22). -/
def State.x (s : State) (r : Reg) : Int :=
  if s.signBit r then -(s.magnitude r : Int) else (s.magnitude r : Int)

/-- `fits(v)`: `|v| < 2^W` (00_scope.md R11). -/
abbrev State.Fits (s : State) (v : Int) : Prop := v.natAbs < 2 ^ s.params.width

/-- The engine's write of value `v` to a register: its limbs, and SIGN 1 exactly for a negative value, so 0 is
written with SIGN 0 (10_state.md R22). -/
def State.writeX (s : State) (r : Reg) (v : Int) : State :=
  { s with
    limbs := s.limbs.set r (toLimbs s.params.nlimb v.natAbs)
    sign := setSignBit s.sign r (decide (v < 0)) }

/-- All the staged writes of a command (00_scope.md R11). -/
def State.writeAll (s : State) : List (Reg × Int) → State
  | [] => s
  | (r, v) :: ws => (s.writeX r v).writeAll ws

/-! ### The operand fields of each command (30_encoding.md R85) -/


/-- The source register fields of a command, in field order. -/
def sourcesOf : Instr → List Reg
  | .add _ rs1 rs2 => [rs1, rs2]
  | .sub _ rs1 rs2 => [rs1, rs2]
  | .mul _ rs1 rs2 => [rs1, rs2]
  | .divmod _ _ rs1 rs2 => [rs1, rs2]
  | .cmp _ rs1 rs2 => [rs1, rs2]
  | .mov _ rs1 => [rs1]
  | .ldi _ _ => []
  | .modmul _ rs1 rs2 rs3 => [rs1, rs2, rs3]
  | .modexp _ rs1 rs2 rs3 => [rs1, rs2, rs3]
  | .mrtest _ rs1 _ => [rs1]
  | .primegen _ => []
  | .egcd _ _ _ rs1 rs2 => [rs1, rs2]
  | .modinv _ rs1 rs2 => [rs1, rs2]

/-- The destination register fields of a command: `rd`, `rd2`, `rd3`. -/
def destsOf : Instr → List Reg
  | .add rd _ _ => [rd]
  | .sub rd _ _ => [rd]
  | .mul rd _ _ => [rd]
  | .divmod rd rd2 _ _ => [rd, rd2]
  | .cmp rd _ _ => [rd]
  | .mov rd _ => [rd]
  | .ldi rd _ => [rd]
  | .modmul rd _ _ _ => [rd]
  | .modexp rd _ _ _ => [rd]
  | .mrtest rd _ _ => [rd]
  | .primegen rd => [rd]
  | .egcd rd rd2 rd3 _ _ => [rd, rd2, rd3]
  | .modinv rd _ _ => [rd]

/-- Two destination fields of the command are equal (30_encoding.md R88). -/
def coincidingDests (i : Instr) : Bool := !decide (destsOf i).Nodup

/-! ### The inputs of the command in progress (00_scope.md R11, 10_state.md R26)

A busy engine sees what acceptance latched. Where the engine is idle, `exec` stands for an acceptance and the engine
step right after it, and sees the live registers (log entry 10). -/

/-- `x[rs]` as the command sees it: the latched value. -/
def State.operand (s : State) (r : Reg) : Int :=
  match s.engine with
  | .busy l => (l.sources.lookup r).getD (s.x r)
  | .idle => s.x r

/-- The PGCAP the command sees: the latched one (10_state.md R37). -/
def State.capInForce (s : State) : Word :=
  match s.engine with
  | .busy l => l.cap
  | .idle => s.pgcap

/-- `k` before the coming engine step: 0 at acceptance (10_state.md R28). -/
def State.candidatesSoFar (s : State) : Nat :=
  match s.engine with
  | .busy _ => s.candidates
  | .idle => 0

/-- The word of the command in progress, which an error records in ERRCMD (10_state.md R27). -/
def State.commandWord (s : State) (i : Instr) : Word :=
  match s.engine with
  | .busy l => l.word
  | .idle => encode i

/-- The value of a command's 16-bit immediate, zero-extended (30_encoding.md R84). -/
def immValue (imm16 : BitVec 16) : Nat := (imm16.setWidth 32).toNat

end Sys2Proof.Machine
end

