-- ==== Sys2Proof/Machine/Flags.lean ====
section
/-!
DEFINITION. The status and control words: STATUS (10_state.md R34), CTRL (R33), the error numbers
(60_exceptions.md R161), write-one-to-clear, and the interrupt output (R168).
-/

namespace Sys2Proof.Machine

/-- The number of an error code (60_exceptions.md R161). -/
def ErrorCode.number : ErrorCode → BitVec 8
  | .illegal => 1
  | .operand => 2
  | .domain => 3
  | .divZero => 4
  | .overflow => 5
  | .noInverse => 6
  | .pgCap => 7

/-- STATUS.BUSY: 1 while the engine is busy (10_state.md R34). -/
def State.busy (s : State) : Bool :=
  match s.engine with
  | .busy _ => true
  | .idle => false

/-- STATUS.ERR (10_state.md R34). -/
def State.err (s : State) : Bool := s.error.isSome

/-- STATUS.ERRCODE: 0 whenever ERR is 0 (10_state.md R34, 60_exceptions.md R161). -/
def State.errcode (s : State) : BitVec 8 :=
  match s.error with
  | some code => code.number
  | none => 0

/-- STATUS as the host reads it: ERRCODE in bits 15:8, then CMDOVR, ERR, DONE and BUSY in bits 3 to 0, and zero
elsewhere (10_state.md R34). -/
def State.statusWord (s : State) : Word :=
  (0 : BitVec 16) ++ s.errcode ++ (0 : BitVec 4) ++
    BitVec.ofBool s.cmdovr ++ BitVec.ofBool s.err ++ BitVec.ofBool s.done ++ BitVec.ofBool s.busy

/-- CTRL as the host reads it: IE in bit 0; SRST reads 0 (10_state.md R33). -/
def State.ctrlWord (s : State) : Word := (0 : BitVec 31) ++ BitVec.ofBool s.ie

/-- A host write of `v` to STATUS: a 1 clears DONE, ERR (with ERRCODE) or CMDOVR; nothing else changes
(10_state.md R34). It is also the host's acknowledgement of a completion, the machine's analogue of a return
(60_exceptions.md R166). -/
def State.acknowledge (s : State) (v : Word) : State :=
  { s with
    done := s.done && !v.getLsbD 1
    error := if v.getLsbD 2 then none else s.error
    cmdovr := s.cmdovr && !v.getLsbD 3 }

/-- The interrupt output, `CTRL.IE AND STATUS.DONE` (60_exceptions.md R168). -/
def State.irq (s : State) : Bool := s.ie && s.done

/-- The platform's interrupt line `line`, as far as the NTE drives it (60_exceptions.md R168, NTE_IRQ_LINE). -/
def State.irqOnLine (s : State) (line : Nat) : Bool := line == s.params.irqLine && s.irq

end Sys2Proof.Machine
end

