-- ==== Sys2Proof/Machine/Ops.lean ====
section
/-!
DEFINITION. The shared operations of the machine: reset, the draws of the random port, acceptance of a command, its
commit, and its end with an error (the machine's analogue of taking an exception, 60_exceptions.md R165).
-/

namespace Sys2Proof.Machine

/-- What an engine step or a host step answers. -/
abbrev StepResult := Host.Outcome State Fault Refusal

/-! ### Reset (70_reset_and_hazards.md R190) -/

/-- Hardware or soft reset: every piece of the NTE's state takes its reset value. What is outside the NTE stays: the
coming inputs, the random source and the word the host read last (log entry 13). -/
def State.resetNte (s : State) : State :=
  { State.resetWith s.params with port := s.port, inputs := s.inputs, lastRead := s.lastRead }

/-! ### The random port (00_scope.md R8, R12; log entry 3) -/

/-- The port's answer to the draw `n` draws from now. -/
def Port.answer (p : Port) (n : Nat) : Nat := (p.answers[n]?).getD (Config.freeDraw (p.drawn + n))

/-- The port after `n` draws. -/
def Port.after (p : Port) (n : Nat) : Port := { answers := p.answers.drop n, drawn := p.drawn + n }

/-- A raw answer as an integer of `[lo, hi]`. Every integer of the range is reached, and a number already in the
range stands for itself (00_scope.md R7 WITNESS_MAP, R12). -/
def intoRange (lo hi a : Nat) : Nat := if lo ≤ a ∧ a ≤ hi then a else lo + a % (hi - lo + 1)

/-- `Draw_witness(lo, hi)` (00_scope.md R12). -/
def drawWitness (lo hi : Nat) (p : Port) : Nat × Port := (intoRange lo hi (p.answer 0), p.after 1)

/-- `Draw_bytes(L)`: `L` bytes, first drawn first (00_scope.md R12). -/
def drawBytes (length : Nat) (p : Port) : List Byte × Port :=
  ((List.range length).map fun n => BitVec.ofNat 8 (p.answer n), p.after length)

/-! ### The end of a command (10_state.md R27) -/

/-- A successful commit: all staged writes, then BUSY 0 and DONE 1 (10_state.md R27). ERR is 0 after it, as it was
while the command ran (R34). -/
def State.complete (s : State) (writes : List (Reg × Int)) : State :=
  { s.writeAll writes with engine := .idle, done := true, error := none }

/-- A command ends with an error: BUSY 0, DONE 1, ERR 1, ERRCODE the code, ERRCMD the command word, and nothing else
(10_state.md R27, 60_exceptions.md R162). -/
def State.raise (s : State) (code : ErrorCode) (word : Word) : State :=
  { s with engine := .idle, done := true, error := some code, errcmd := word }

/-- The commit step of command `i` whose pseudocode ended with the given staged writes or error (00_scope.md R11). -/
def State.finish (s : State) (i : Instr) (result : Except ErrorCode (List (Reg × Int))) : State :=
  match result with
  | .ok writes => s.complete writes
  | .error code => s.raise code (s.commandWord i)

/-! ### Acceptance (10_state.md R26) -/

/-- What acceptance of word `w`, whose command reads the registers `sources`, latches. -/
def State.latchOf (s : State) (w : Word) (sources : List Reg) : Latch :=
  { word := w, sources := sources.map fun r => (r, s.x r), cap := s.pgcap }

/-- Steps (3) and (4) of an acceptance: latch, BUSY 1, DONE 0, ERR 0, ERRCODE 0; `k` is 0 (10_state.md R26, R28). -/
def State.accept (s : State) (w : Word) (sources : List Reg) : State :=
  { s with engine := .busy (s.latchOf w sources), candidates := 0, done := false, error := none }

/-- A host write of word `w` to CMD. Busy: the write is dropped and sets CMDOVR (70_reset_and_hazards.md R196). Idle:
an illegal word, then a word with coinciding destinations, ends at once with its error; any other is accepted
(10_state.md R26, 30_encoding.md R86, 60_exceptions.md R163). -/
def State.issue (s : State) (w : Word) : State :=
  match s.engine with
  | .busy _ => { s with cmdovr := true }
  | .idle =>
    match decode w with
    | .error _ => s.raise .illegal w
    | .ok i => if coincidingDests i then s.raise .operand w else s.accept w (sourcesOf i)

/-- The source registers of the command a word stands for; none for an illegal word. -/
def sourcesOfWord (w : Word) : List Reg :=
  match decode w with
  | .ok i => sourcesOf i
  | .error _ => []

/-- The latch an engine step of command `i` leaves behind when the command goes on (10_state.md R28). -/
def State.latchInForce (s : State) (i : Instr) : Latch :=
  match s.engine with
  | .busy l => l
  | .idle => s.latchOf (encode i) (sourcesOf i)

/-- What the engine finds when it takes its turn. -/
inductive Fetched where
  /-- No command is in progress. -/
  | idle
  /-- The command in progress. -/
  | command (i : Instr)
  /-- A latched word that is illegal. No acceptance latches one (10_state.md R26(2), log entry 12). -/
  | illegal (word : Word)
  deriving DecidableEq, Repr

/-- The command the engine has in progress, decoded from the latched word. -/
def State.fetch (s : State) : Fetched :=
  match s.engine with
  | .idle => .idle
  | .busy l =>
    match decode l.word with
    | .ok i => .command i
    | .error _ => .illegal l.word

/-- The next event of the total order (20_memory.md R62), and the state with it taken out. Where no event is listed
the engine has the turn (log entry 2). -/
def State.takeInput (s : State) : Input × State :=
  match s.inputs with
  | [] => (.engineTurn, s)
  | e :: es => (e, { s with inputs := es })

end Sys2Proof.Machine
end

