-- ==== Sys2Proof/Machine/Bus.lean ====
section
/-!
DEFINITION. The host's side: the register window (20_memory.md R52), host reads and writes (R53 to R60), and the
platform's view of it.
-/

namespace Sys2Proof.Machine

/-- A register of the window (20_memory.md R52). -/
inductive WindowReg where
  | id | param | pglen | ctrl | status | cmd | errcmd | pgcap | sign
  /-- Limb `L[i][j]`. -/
  | limb (i : Reg) (j : Nat)
  /-- A reserved offset. -/
  | reserved
  deriving DecidableEq, Repr

/-- Where the limb region starts (20_memory.md R52). -/
def limbBase : Nat := 0x1000

/-- The offset of limb `L[i][j]`: `0x1000 + 4·NLIMB·i + 4·j` (20_memory.md R57). -/
def limbOffset (p : Config.Params) (i : Reg) (j : Nat) : Nat := limbBase + 4 * p.nlimb * i.val + 4 * j

/-- The register at an aligned offset of the limb region, or a reserved one (20_memory.md R52). -/
def limbAt (p : Config.Params) (offset : Nat) : WindowReg :=
  let n := (offset - limbBase) / 4
  if h : n / p.nlimb < 16 then
    if p.nlimb = 0 then .reserved else .limb ⟨n / p.nlimb, h⟩ (n % p.nlimb)
  else .reserved

/-- The register at an aligned offset (20_memory.md R52). -/
def windowReg (p : Config.Params) (offset : Nat) : WindowReg :=
  match offset with
  | 0x000 => .id
  | 0x004 => .param
  | 0x008 => .pglen
  | 0x00C => .ctrl
  | 0x010 => .status
  | 0x014 => .cmd
  | 0x018 => .errcmd
  | 0x01C => .pgcap
  | 0x020 => .sign
  | n => if n < limbBase then .reserved else limbAt p n

/-- PARAM: NLIMB in bits 15:0, NREG in bits 23:16 (10_state.md R31). -/
def paramWord (p : Config.Params) : Word :=
  (0 : BitVec 8) ++ BitVec.ofNat 8 Config.nreg ++ BitVec.ofNat 16 p.nlimb

/-- PGLEN: PG_LEN in bits 15:0 (10_state.md R32). -/
def pglenWord (p : Config.Params) : Word := (0 : BitVec 16) ++ BitVec.ofNat 16 p.pgLen

/-- What a register reads as (10_state.md R30 to R38; 20_memory.md R57, R59). -/
def State.readReg (s : State) : WindowReg → Word
  | .id => Config.idValue
  | .param => paramWord s.params
  | .pglen => pglenWord s.params
  | .ctrl => s.ctrlWord
  | .status => s.statusWord
  | .cmd => 0
  | .errcmd => s.errcmd
  | .pgcap => s.pgcap
  | .sign => (0 : BitVec 16) ++ s.sign
  | .limb i j => (s.limbs[i][j]?).getD 0
  | .reserved => 0

/-- A host write to CTRL: with SRST it is a reset and every other bit is discarded; otherwise it stores IE
(10_state.md R33). -/
def State.writeCtrl (s : State) (v : Word) : State :=
  if v.getLsbD 1 then s.resetNte else { s with ie := v.getLsbD 0 }

/-- What a host write of `v` to a register does (10_state.md R30 to R38; 20_memory.md R57, R59, R60). -/
def State.writeReg (s : State) (r : WindowReg) (v : Word) : State :=
  match r with
  | .id => s
  | .param => s
  | .pglen => s
  | .ctrl => s.writeCtrl v
  | .status => s.acknowledge v
  | .cmd => s.issue v
  | .errcmd => s
  | .pgcap => { s with pgcap := v }
  | .sign => { s with sign := v.extractLsb' 0 16 }
  | .limb i j => { s with limbs := s.limbs.set i (s.limbs[i].set j v) }
  | .reserved => s

/-- An access the bus carries: 32 bits wide and aligned (20_memory.md R53, R54). -/
def legalAccess (width : Width) (offset : Offset) : Bool := width == .w32 && offset.toNat % 4 == 0

/-- `MemRead(off, 4)`: the word at an aligned offset (00_scope.md R13). -/
def State.memRead (s : State) (offset : Offset) : Word := s.readReg (windowReg s.params offset.toNat)

/-- `MemWrite(off, 4, v)` at an aligned offset (00_scope.md R13). -/
def State.memWrite (s : State) (offset : Offset) (v : Word) : State :=
  s.writeReg (windowReg s.params offset.toNat) v

/-- A host read: its only effect is the word the host gets (20_memory.md R60). An illegal access is a bus error
(R55). -/
def hostRead (width : Width) (offset : Offset) (s : State) : StepResult :=
  if legalAccess width offset then .next { s with lastRead := some (s.memRead offset) } else .fault .busError

/-- A host write (20_memory.md R52). An illegal access is a bus error (R55). -/
def hostWrite (width : Width) (offset : Offset) (v : Word) (s : State) : StepResult :=
  if legalAccess width offset then .next (s.memWrite offset v) else .fault .busError

/-! ### The platform's view -/

/-- The window offset a system address selects, if it lies in the window at NTE_BASE (20_memory.md R50). -/
def offsetOfAddress (p : Config.Params) (address : Nat) : Option Offset :=
  if p.nteBase ≤ address ∧ address < p.nteBase + 0x10000 then some (BitVec.ofNat 16 (address - p.nteBase)) else none

/-- The host's access to a system address, as an input of the NTE: none where the address selects another agent. -/
def readOfAddress (p : Config.Params) (width : Width) (address : Nat) : Option Input :=
  (offsetOfAddress p address).map (.read width)

/-- The host's write to a system address, as an input of the NTE. -/
def writeOfAddress (p : Config.Params) (width : Width) (address : Nat) (v : Word) : Option Input :=
  (offsetOfAddress p address).map fun offset => .write width offset v

end Sys2Proof.Machine
end

