-- ==== Sys2Proof/Machine/Arith.lean ====
section
/-!
DEFINITION. The large-integer support commands (40_arith.md). Every operation is exact over the integers (R100).
-/

namespace Sys2Proof.Machine

/-- Stage `v` for `rd`, or E_OVERFLOW when it does not fit (40_arith.md R100(3)). -/
def stageFitting (s : State) (rd : Reg) (v : Int) : Except ErrorCode (List (Reg × Int)) :=
  if s.Fits v then .ok [(rd, v)] else .error .overflow

/-- ADD (40_arith.md R101). -/
def execAdd (rd rs1 rs2 : Reg) (s : State) : StepResult :=
  .next (s.finish (.add rd rs1 rs2) (stageFitting s rd (s.operand rs1 + s.operand rs2)))

/-- SUB (40_arith.md R102). -/
def execSub (rd rs1 rs2 : Reg) (s : State) : StepResult :=
  .next (s.finish (.sub rd rs1 rs2) (stageFitting s rd (s.operand rs1 - s.operand rs2)))

/-- MUL (40_arith.md R103). -/
def execMul (rd rs1 rs2 : Reg) (s : State) : StepResult :=
  .next (s.finish (.mul rd rs1 rs2) (stageFitting s rd (s.operand rs1 * s.operand rs2)))

/-- The pseudocode of DIVMOD (40_arith.md R104), its destination check first (30_encoding.md R88). -/
def divmodResult (rd rd2 : Reg) (a b : Int) : Except ErrorCode (List (Reg × Int)) :=
  if rd = rd2 then .error .operand
  else if a < 0 then .error .domain
  else if b < 0 then .error .domain
  else if b = 0 then .error .divZero
  else .ok [(rd, a / b), (rd2, a % b)]

/-- DIVMOD (40_arith.md R104). -/
def execDivmod (rd rd2 rs1 rs2 : Reg) (s : State) : StepResult :=
  .next (s.finish (.divmod rd rd2 rs1 rs2) (divmodResult rd rd2 (s.operand rs1) (s.operand rs2)))

/-- The signed three-way comparison (40_arith.md R105). -/
def compare3 (a b : Int) : Int := if a < b then -1 else if a = b then 0 else 1

/-- CMP (40_arith.md R105). -/
def execCmp (rd rs1 rs2 : Reg) (s : State) : StepResult :=
  .next (s.finish (.cmp rd rs1 rs2) (.ok [(rd, compare3 (s.operand rs1) (s.operand rs2))]))

/-- MOV (40_arith.md R106). -/
def execMov (rd rs1 : Reg) (s : State) : StepResult :=
  .next (s.finish (.mov rd rs1) (.ok [(rd, s.operand rs1)]))

/-- LDI (40_arith.md R107). -/
def execLdi (rd : Reg) (imm16 : BitVec 16) (s : State) : StepResult :=
  .next (s.finish (.ldi rd imm16) (.ok [(rd, (immValue imm16 : Int))]))

end Sys2Proof.Machine
end

