-- ==== Sys2Proof/Machine/Euclid.lean ====
section
/-!
DEFINITION. The extended Euclidean and modular inverse unit (43_euclid.md).
-/

namespace Sys2Proof.Machine

/-- The descent of EGCD (43_euclid.md R150). The first argument bounds its depth; `b + 1` is always enough, since
the second argument strictly decreases (R154). -/
def egcdLoop : Nat → Nat → Nat → Int × Int × Int
  | 0, a, _ => (a, 1, 0)
  | depth + 1, a, b =>
    if b = 0 then (a, 1, 0)
    else
      let (g, x1, y1) := egcdLoop depth b (a % b)
      (g, y1, x1 - ((a / b : Nat) : Int) * y1)

/-- `EGCD(a, b) = (g, x, y)` (43_euclid.md R150). -/
def egcd (a b : Nat) : Int × Int × Int := egcdLoop (b + 1) a b

/-- The pseudocode of EGCD (43_euclid.md R151), its destination check first (30_encoding.md R88). -/
def egcdResult (rd rd2 rd3 : Reg) (a b : Int) : Except ErrorCode (List (Reg × Int)) :=
  if rd = rd2 ∨ rd = rd3 ∨ rd2 = rd3 then .error .operand
  else if a < 0 then .error .domain
  else if b < 0 then .error .domain
  else
    let (g, u, v) := egcd a.toNat b.toNat
    .ok [(rd, g), (rd2, u), (rd3, v)]

/-- EGCD (43_euclid.md R151). -/
def execEgcd (rd rd2 rd3 rs1 rs2 : Reg) (s : State) : StepResult :=
  .next (s.finish (.egcd rd rd2 rd3 rs1 rs2) (egcdResult rd rd2 rd3 (s.operand rs1) (s.operand rs2)))

/-- The pseudocode of MODINV (43_euclid.md R152). -/
def modinvResult (rd : Reg) (a m : Int) : Except ErrorCode (List (Reg × Int)) :=
  if a < 0 then .error .domain
  else if m < 0 then .error .domain
  else if m = 0 then .error .divZero
  else
    let (g, u, _) := egcd a.toNat m.toNat
    if g ≠ 1 then .error .noInverse else .ok [(rd, u % m)]

/-- MODINV (43_euclid.md R152). -/
def execModinv (rd rs1 rs2 : Reg) (s : State) : StepResult :=
  .next (s.finish (.modinv rd rs1 rs2) (modinvResult rd (s.operand rs1) (s.operand rs2)))

end Sys2Proof.Machine
end

