-- ==== Sys2Proof/Machine/Modexp.lean ====
section
/-!
DEFINITION. The modular exponentiation unit (41_modexp.md).
-/

namespace Sys2Proof.Machine

/-- The loop of POWER (41_modexp.md R120): `acc`, the current squared base `b` and the remaining exponent `e`. The
first argument bounds the number of passes; `e` of them are always enough, since each pass halves `e`. -/
def powerLoop (m : Nat) : Nat → Nat → Nat → Nat → Nat
  | 0, acc, _, _ => acc
  | passes + 1, acc, b, e =>
    if e = 0 then acc
    else powerLoop m passes (if e % 2 = 1 then acc * b % m else acc) (b * b % m) (e / 2)

/-- `POWER(base, e, m)` (41_modexp.md R120): square and multiply, least significant exponent bit first, from the
accumulator `1 mod m`. -/
def power (base e m : Nat) : Nat := powerLoop m e (1 % m) (base % m) e

/-- The pseudocode of MODMUL (41_modexp.md R121). -/
def modmulResult (rd : Reg) (a b m : Int) : Except ErrorCode (List (Reg × Int)) :=
  if a < 0 then .error .domain
  else if b < 0 then .error .domain
  else if m < 0 then .error .domain
  else if m = 0 then .error .divZero
  else .ok [(rd, a * b % m)]

/-- MODMUL (41_modexp.md R121). -/
def execModmul (rd rs1 rs2 rs3 : Reg) (s : State) : StepResult :=
  .next (s.finish (.modmul rd rs1 rs2 rs3) (modmulResult rd (s.operand rs1) (s.operand rs2) (s.operand rs3)))

/-- The pseudocode of MODEXP (41_modexp.md R122). -/
def modexpResult (rd : Reg) (base e m : Int) : Except ErrorCode (List (Reg × Int)) :=
  if base < 0 then .error .domain
  else if e < 0 then .error .domain
  else if m < 0 then .error .domain
  else if m = 0 then .error .divZero
  else .ok [(rd, (power base.toNat e.toNat m.toNat : Int))]

/-- MODEXP (41_modexp.md R122). -/
def execModexp (rd rs1 rs2 rs3 : Reg) (s : State) : StepResult :=
  .next (s.finish (.modexp rd rs1 rs2 rs3) (modexpResult rd (s.operand rs1) (s.operand rs2) (s.operand rs3)))

end Sys2Proof.Machine
end

