-- ==== Sys2Proof/Machine/Primality.lean ====
section
/-!
DEFINITION. The Miller-Rabin primality tester and the prime generator (42_primality.md).
-/

namespace Sys2Proof.Machine

/-- The loop of DECOMP (42_primality.md R131): halve `d` while it is even, counting in `r`. -/
def decompLoop : Nat → Nat → Nat → Nat × Nat
  | 0, r, d => (r, d)
  | passes + 1, r, d => if d % 2 = 0 then decompLoop passes (r + 1) (d / 2) else (r, d)

/-- `DECOMP(n) = (r, d)` with `n - 1 = 2^r · d` and `d` odd, for odd `n ≥ 3` (42_primality.md R131). -/
def decomp (n : Nat) : Nat × Nat := decompLoop n 0 (n - 1)

/-- Square `x` modulo `n` up to `count` times: does it ever equal `n - 1` (42_primality.md R130)? -/
def squaresHit (n : Nat) : Nat → Nat → Bool
  | 0, _ => false
  | count + 1, x => if x * x % n = n - 1 then true else squaresHit n count (x * x % n)

/-- One trial of Miller-Rabin on `n = 2^r · d + 1` with witness `a` passes (42_primality.md R130). -/
def trialPasses (n r d a : Nat) : Bool :=
  let x := power a d n
  if x = 1 ∨ x = n - 1 then true else squaresHit n (r - 1) x

/-- The upper end of the witness range, `min(n - 1, WCAP)` (42_primality.md R132). -/
def witnessMax (n : Nat) : Nat := min (n - 1) Config.wcap

/-- The trials of MR: each draws its witness and tests it; the first failing trial ends the run and draws no more
(42_primality.md R130). -/
def mrTrials (n r d : Nat) : Nat → Port → Bool × Port
  | 0, p => (true, p)
  | rounds + 1, p =>
    let (a, p') := drawWitness 2 (witnessMax n) p
    if trialPasses n r d a then mrTrials n r d rounds p' else (false, p')

/-- `MR(n, rounds)` for odd `n ≥ 3` (42_primality.md R130), with the port after its draws. -/
def mr (n rounds : Nat) (p : Port) : Bool × Port :=
  let (r, d) := decomp n
  mrTrials n r d rounds p

/-- The pseudocode of MRTEST (42_primality.md R133): its end, and the port after its draws. -/
def mrtestResult (rd : Reg) (n : Int) (rounds : Nat) (p : Port) :
    Except ErrorCode (List (Reg × Int)) × Port :=
  if n < 0 then (.error .domain, p)
  else if n % 2 = 0 then (.ok [(rd, 0)], p)
  else if n = 1 then (.error .domain, p)
  else
    let (pass, p') := mr n.toNat rounds p
    (.ok [(rd, if pass then 1 else 0)], p')

/-- MRTEST (42_primality.md R133). -/
def execMrtest (rd rs1 : Reg) (imm16 : BitVec 16) (s : State) : StepResult :=
  let ending := mrtestResult rd (s.operand rs1) (immValue imm16) s.port
  .next ({ s with port := ending.2 }.finish (.mrtest rd rs1 imm16) ending.1)

/-- Bytes as an integer, the first one most significant (20_memory.md R58). -/
def bigEndian (bytes : List Byte) : Nat := bytes.foldl (fun acc b => acc * 256 + b.toNat) 0

/-- Force the first byte's top bit and the last byte's bottom bit (42_primality.md R134(2), (3)). -/
def forceBytes (bytes : List Byte) : List Byte :=
  (bytes.modifyHead (· ||| 0x80)).modify (bytes.length - 1) (· ||| 0x01)

/-- `CANDIDATE(L)` (42_primality.md R134), with the port after its draws. -/
def candidate (length : Nat) (p : Port) : Nat × Port :=
  let (bytes, p') := drawBytes length p
  (bigEndian (forceBytes bytes), p')

/-- One engine step of PRIMEGEN (42_primality.md R135, R136): draw the next candidate and test it with 20 rounds; a
pass commits it, the `cap`-th rejection ends with E_PGCAP, any other rejection leaves the engine busy. -/
def State.nextCandidate (s : State) (i : Instr) (rd : Reg) : State :=
  let k := s.candidatesSoFar + 1
  let (c, p) := candidate s.params.pgLen s.port
  let (pass, p') := mr c Config.pgRounds p
  let s' := { s with candidates := k, port := p' }
  if pass then s'.finish i (.ok [(rd, (c : Int))])
  else if s.capInForce ≠ 0 ∧ k = s.capInForce.toNat then s'.finish i (.error .pgCap)
  else { s' with engine := .busy (s.latchInForce i), done := false, error := none }

/-- PRIMEGEN (42_primality.md R135). -/
def execPrimegen (rd : Reg) (s : State) : StepResult := .next (s.nextCandidate (.primegen rd) rd)

end Sys2Proof.Machine
end

