-- ==== Sys2Proof/Machine/Dispatch.lean ====
section
/-!
DEFINITION. The engine step of each command (70_reset_and_hazards.md R200): one arm per row of the opcode table.
-/

namespace Sys2Proof.Machine

def exec (i : Instr) (s : State) : Host.Outcome State Fault Refusal :=
  match i with
  | .add rd rs1 rs2 => Sys2Proof.Machine.execAdd rd rs1 rs2 s
  | .sub rd rs1 rs2 => Sys2Proof.Machine.execSub rd rs1 rs2 s
  | .mul rd rs1 rs2 => Sys2Proof.Machine.execMul rd rs1 rs2 s
  | .divmod rd rd2 rs1 rs2 => Sys2Proof.Machine.execDivmod rd rd2 rs1 rs2 s
  | .cmp rd rs1 rs2 => Sys2Proof.Machine.execCmp rd rs1 rs2 s
  | .mov rd rs1 => Sys2Proof.Machine.execMov rd rs1 s
  | .ldi rd imm16 => Sys2Proof.Machine.execLdi rd imm16 s
  | .modmul rd rs1 rs2 rs3 => Sys2Proof.Machine.execModmul rd rs1 rs2 rs3 s
  | .modexp rd rs1 rs2 rs3 => Sys2Proof.Machine.execModexp rd rs1 rs2 rs3 s
  | .mrtest rd rs1 imm16 => Sys2Proof.Machine.execMrtest rd rs1 imm16 s
  | .primegen rd => Sys2Proof.Machine.execPrimegen rd s
  | .egcd rd rd2 rd3 rs1 rs2 => Sys2Proof.Machine.execEgcd rd rd2 rd3 rs1 rs2 s
  | .modinv rd rs1 rs2 => Sys2Proof.Machine.execModinv rd rs1 rs2 s

end Sys2Proof.Machine
end

