-- ==== Sys2Proof/Machine/Step.lean ====
section
/-!
DEFINITION. One step of the total order (20_memory.md R62): a host access, a reset, or a turn of the engine.
-/

namespace Sys2Proof.Machine

/-- A turn of the engine: it steps only while a command is in progress (00_scope.md R6, 70_reset_and_hazards.md
R200). An illegal latched word ends as an illegal word does (log entry 12). -/
def engineTurn (s : State) : Host.Outcome State Fault Refusal :=
  match s.fetch with
  | .idle => .next s
  | .command i => exec i s
  | .illegal w => .next (s.raise .illegal w)

/-- What one event of the total order does. -/
def runInput (input : Input) (s : State) : Host.Outcome State Fault Refusal :=
  match input with
  | .read width offset => hostRead width offset s
  | .write width offset v => hostWrite width offset v s
  | .resetPin => .next s.resetNte
  | .engineTurn => engineTurn s

/-- One step: the next event of the total order takes place. -/
def step (s : State) : Host.Outcome State Fault Refusal :=
  runInput s.takeInput.1 s.takeInput.2

/-- The state in which the very next step runs the command of table word `w`: the word stands latched as an
acceptance of it would leave it, and the engine has the turn (log entry 9). -/
def State.withFetchWord (s : State) (nbits w : Nat) : State :=
  let word := BitVec.ofNat 32 (w % 2 ^ nbits)
  { s.accept word (sourcesOfWord word) with inputs := .engineTurn :: s.inputs }

end Sys2Proof.Machine
end

