-- ==== Sys2Proof/Machine/Assembler.lean ====
section
/-!
DEFINITION. The spec's assembly lines (30_encoding.md R90, R91): one command per line, `MNEMONIC op1, op2, ...`, with
a comment after `;`. A line is a list of characters. Nothing in the machine depends on this file.
-/

namespace Sys2Proof.Machine

/-- An operand of a line: a register `r0` to `r15`, or an immediate in `[0, 65535]` (30_encoding.md R90). -/
inductive AsmOperand where
  | reg (r : Reg)
  | imm (value : BitVec 16)
  deriving DecidableEq, Repr

/-- Space and tab separate the parts of a line (log entry 15). -/
def isBlank (c : Char) : Bool := c == ' ' || c == '\t'

/-- The characters without blanks at either end. -/
def trimBlanks (cs : List Char) : List Char :=
  ((cs.dropWhile isBlank).reverse.dropWhile isBlank).reverse

/-- The parts between commas. -/
def splitCommas : List Char → List (List Char)
  | [] => [[]]
  | c :: cs =>
    match splitCommas cs with
    | [] => [[c]]
    | part :: parts => if c = ',' then [] :: part :: parts else (c :: part) :: parts

/-- The value of a digit of the given base, 10 or 16. -/
def digitValue (base : Nat) (c : Char) : Option Nat :=
  let n := c.toNat
  let value := if 48 ≤ n ∧ n ≤ 57 then n - 48
    else if 97 ≤ n ∧ n ≤ 102 then n - 87
    else if 65 ≤ n ∧ n ≤ 70 then n - 55
    else base
  if value < base then some value else none

/-- The number the digits write, after `acc`. -/
def readDigits (base : Nat) : Nat → List Char → Option Nat
  | acc, [] => some acc
  | acc, c :: cs =>
    match digitValue base c with
    | some d => readDigits base (acc * base + d) cs
    | none => none

/-- A decimal literal, or a `0x` hexadecimal one (30_encoding.md R90). -/
def readLiteral : List Char → Option Nat
  | [] => none
  | '0' :: 'x' :: c :: cs => readDigits 16 0 (c :: cs)
  | c :: cs => readDigits 10 0 (c :: cs)

/-- A register or an immediate (30_encoding.md R90). -/
def readOperand (cs : List Char) : Option AsmOperand :=
  match cs with
  | 'r' :: c :: digits =>
    match readDigits 10 0 (c :: digits) with
    | some n => if h : n < 16 then some (.reg ⟨n, h⟩) else none
    | none => none
  | _ =>
    match readLiteral cs with
    | some n => if n < 65536 then some (.imm (BitVec.ofNat 16 n)) else none
    | none => none

/-- The command of a mnemonic and its operands, in the operand order of 30_encoding.md R90; pseudo-commands are
expanded (R91). -/
def assemble (mnemonic : List Char) (operands : List AsmOperand) : Option Instr :=
  match mnemonic, operands with
  | ['A', 'D', 'D'], [.reg rd, .reg rs1, .reg rs2] => some (.add rd rs1 rs2)
  | ['S', 'U', 'B'], [.reg rd, .reg rs1, .reg rs2] => some (.sub rd rs1 rs2)
  | ['M', 'U', 'L'], [.reg rd, .reg rs1, .reg rs2] => some (.mul rd rs1 rs2)
  | ['D', 'I', 'V', 'M', 'O', 'D'], [.reg rd, .reg rd2, .reg rs1, .reg rs2] => some (.divmod rd rd2 rs1 rs2)
  | ['C', 'M', 'P'], [.reg rd, .reg rs1, .reg rs2] => some (.cmp rd rs1 rs2)
  | ['M', 'O', 'V'], [.reg rd, .reg rs1] => some (.mov rd rs1)
  | ['L', 'D', 'I'], [.reg rd, .imm v] => some (.ldi rd v)
  | ['M', 'O', 'D', 'M', 'U', 'L'], [.reg rd, .reg rs1, .reg rs2, .reg rs3] => some (.modmul rd rs1 rs2 rs3)
  | ['M', 'O', 'D', 'E', 'X', 'P'], [.reg rd, .reg rs1, .reg rs2, .reg rs3] => some (.modexp rd rs1 rs2 rs3)
  | ['M', 'R', 'T', 'E', 'S', 'T'], [.reg rd, .reg rs1, .imm v] => some (.mrtest rd rs1 v)
  | ['P', 'R', 'I', 'M', 'E', 'G', 'E', 'N'], [.reg rd] => some (.primegen rd)
  | ['E', 'G', 'C', 'D'], [.reg rd, .reg rd2, .reg rd3, .reg rs1, .reg rs2] => some (.egcd rd rd2 rd3 rs1 rs2)
  | ['M', 'O', 'D', 'I', 'N', 'V'], [.reg rd, .reg rs1, .reg rs2] => some (.modinv rd rs1 rs2)
  | ['C', 'L', 'R'], [.reg rd] => some (.clr rd)
  | ['S', 'Q', 'R', 'M', 'O', 'D'], [.reg rd, .reg rs, .reg rm] => some (.sqrmod rd rs rm)
  | ['N', 'O', 'P'], [] => some .nop
  | _, _ => none

/-- The operands of a line, none when one of them is malformed. -/
def readOperands : List (List Char) → Option (List AsmOperand)
  | [] => some []
  | part :: parts =>
    match readOperand (trimBlanks part), readOperands parts with
    | some operand, some operands => some (operand :: operands)
    | _, _ => none

/-- The command a line writes, if it writes one (30_encoding.md R90). -/
def assembleLine (line : List Char) : Option Instr :=
  let code := trimBlanks (line.takeWhile (· != ';'))
  let mnemonic := code.takeWhile fun c => !isBlank c
  let rest := trimBlanks (code.dropWhile fun c => !isBlank c)
  if rest = [] then assemble mnemonic []
  else
    match readOperands (splitCommas rest) with
    | some operands => assemble mnemonic operands
    | none => none

end Sys2Proof.Machine
end

