-- ==== Sys2Proof/Safety.lean ====
section
/-!
DEFINITION. What counts as a good state and a safe step, and the observable ways a command can end, in the terms
the statements use.
-/

namespace Sys2Proof.Machine

/-- A latch as acceptance makes it: the word of a well-formed command, and the values of exactly its source
registers, each fitting a register (10_state.md R26, 30_encoding.md R86). -/
structure Latch.Good (width : Nat) (l : Latch) : Prop where
  command : ∃ i, decode l.word = .ok i ∧ i.wf = true ∧ l.sources.map Prod.fst = sourcesOf i
  fits : ∀ source ∈ l.sources, source.2.natAbs < 2 ^ width

/-- The invariant of the machine: the parameters meet 00_scope.md R7; every register has NLIMB limbs (10_state.md
R21); while a command is in progress DONE and ERR are 0 (R34), its latch is as acceptance made it (R26), and fewer
candidates have been drawn than the latched cap allows (42_primality.md R136). -/
structure State.Inv (s : State) : Prop where
  params : s.params.Valid
  limbs : ∀ r : Reg, s.limbs[r].length = s.params.nlimb
  quiet : s.busy = true → s.done = false ∧ s.error = none
  latch : ∀ l, s.engine = .busy l → l.Good s.params.width
  cap : ∀ l, s.engine = .busy l → l.cap ≠ 0 → s.candidates < l.cap.toNat

/-- A step that does not stop the machine. -/
def SafeStep (s : State) : Prop := ∃ t, step s = .next t

/-! ### Observable ends of a command (10_state.md R27) -/

/-- What no command changes: the parameters, IE, CMDOVR, PGCAP, the coming inputs and the word last read
(20_memory.md R51, 10_state.md R33 to R38). -/
structure SameControls (s t : State) : Prop where
  params : t.params = s.params
  ie : t.ie = s.ie
  cmdovr : t.cmdovr = s.cmdovr
  pgcap : t.pgcap = s.pgcap
  inputs : t.inputs = s.inputs
  lastRead : t.lastRead = s.lastRead

/-- Register `r` holds in `t` what it holds in `s`: every limb and the sign bit. -/
structure SameReg (s t : State) (r : Reg) : Prop where
  limbs : t.limbs[r] = s.limbs[r]
  sign : t.signBit r = s.signBit r

/-- `t` is `s` after a command that committed exactly the writes `ws` and left the random port as `port`: the engine
idle, DONE 1, ERR 0 with ERRCODE 0, every destination holding its value with a normalised sign (10_state.md R22,
R27), every other register and control unchanged. -/
structure Committed (s t : State) (ws : List (Reg × Int)) (port : Port) : Prop where
  idle : t.engine = .idle
  done : t.done = true
  noError : t.err = false ∧ t.errcode = 0
  written : ∀ w ∈ ws, t.x w.1 = w.2 ∧ t.signBit w.1 = decide (w.2 < 0)
  kept : ∀ r, r ∉ ws.map Prod.fst → SameReg s t r
  errcmd : t.errcmd = s.errcmd
  controls : SameControls s t
  port : t.port = port

/-- `t` is `s` after a command that ended with error `code` and left the random port as `port`: the engine idle, DONE
1, ERR 1, ERRCODE the code's number, ERRCMD the command's word, and no register changed (10_state.md R27,
60_exceptions.md R162). -/
structure EndedWith (s t : State) (code : ErrorCode) (word : Word) (port : Port) : Prop where
  idle : t.engine = .idle
  done : t.done = true
  error : t.err = true ∧ t.errcode = code.number
  errcmd : t.errcmd = word
  kept : ∀ r, SameReg s t r
  controls : SameControls s t
  port : t.port = port

/-- The state table of reset (10_state.md R41). -/
structure AtReset (t : State) : Prop where
  limbs : ∀ r : Reg, t.limbs[r] = List.replicate t.params.nlimb 0
  signs : ∀ r : Reg, t.signBit r = false
  values : ∀ r : Reg, t.x r = 0
  idle : t.engine = .idle
  candidates : t.candidates = 0
  ie : t.ie = false
  status : t.memRead 0x010 = 0
  errcmd : t.errcmd = 0
  pgcap : t.pgcap = 0
  id : t.memRead 0x000 = 0x4E540001
  param : t.memRead 0x004 = paramWord t.params
  pglen : t.memRead 0x008 = pglenWord t.params
  irq : t.irq = false

/-! ### Steps on one input -/

/-- One step of `s` when the next event of the total order is `e`. -/
def stepOn (e : Input) (s : State) : Host.Outcome State Fault Refusal := step { s with inputs := e :: s.inputs }

/-! ### Miller-Rabin in the words of 42_primality.md R130 to R132 -/

/-- Witness `a` passes a trial of `n`: with `n - 1 = 2^r · d` and `d` odd, `a^d` is 1 or `n - 1` modulo `n`, or one of
its first `r - 1` squarings is `n - 1` (42_primality.md R130, R131). -/
def PassesTrial (n a : Nat) : Prop :=
  ∃ r d, n - 1 = 2 ^ r * d ∧ d % 2 = 1 ∧ (a ^ d % n = 1 ∨ ∃ j < r, a ^ (2 ^ j * d) % n = n - 1)

/-- The witness that the draw `t` draws from now gives a trial of `n` (42_primality.md R132). -/
def witnessAt (n : Nat) (p : Port) (t : Nat) : Nat := intoRange 2 (min (n - 1) 100000) (p.answer t)

/-! ### Who may report what (60_exceptions.md R161) -/

/-- The commands whose commit may report each error. E_ILLEGAL is reported at acceptance only, and E_OPERAND only
for a command that is not well formed. -/
def mayReport : ErrorCode → Instr → Bool
  | .illegal, _ => false
  | .operand, i => !i.wf
  | .domain, .divmod _ _ _ _ => true
  | .domain, .modmul _ _ _ _ => true
  | .domain, .modexp _ _ _ _ => true
  | .domain, .mrtest _ _ _ => true
  | .domain, .egcd _ _ _ _ _ => true
  | .domain, .modinv _ _ _ => true
  | .divZero, .divmod _ _ _ _ => true
  | .divZero, .modmul _ _ _ _ => true
  | .divZero, .modexp _ _ _ _ => true
  | .divZero, .modinv _ _ _ => true
  | .overflow, .add _ _ _ => true
  | .overflow, .sub _ _ _ => true
  | .overflow, .mul _ _ _ => true
  | .noInverse, .modinv _ _ _ => true
  | .pgCap, .primegen _ => true
  | _, _ => false

/-- The commands that draw from the random port (60_exceptions.md R177). -/
def drawsRandom : Instr → Bool
  | .mrtest _ _ _ => true
  | .primegen _ => true
  | _ => false

/-- The window registers a command may change: STATUS, ERRCMD, SIGN, and the limbs of its destinations. -/
def mayChange (i : Instr) : WindowReg → Bool
  | .status => true
  | .errcmd => true
  | .sign => true
  | .limb r _ => decide (r ∈ destsOf i)
  | _ => false

/-- The window registers whose host writes change an operand register, SIGN or PGCAP (70_reset_and_hazards.md
R198). -/
def isOperandWindow : WindowReg → Bool
  | .limb _ _ => true
  | .sign => true
  | .pgcap => true
  | _ => false

end Sys2Proof.Machine
end

