-- ==== Sys2Proof/Certificates/Slice0/Obligations.lean ====
section
/-!
DEFINITION. The statements for the provers. Each docstring names the rule of spec/ its statement rests on, and the log
entry where a clause is the model's own choice.
-/

open Sys2Proof Sys2Proof.Machine

/-! ### Encoding (30_encoding.md) -/

/-- Decode and encode agree: decoding the encoded word of any command gives the command back, operand by operand. -/
def Obligations.DecodeOfEncodeIsIdentity : Prop := ∀ i : Instr, decode (encode i) = .ok i

/-- Every legal word is the encoding of the one command it decodes to. -/
def Obligations.EncodeOfDecodeIsIdentity : Prop := ∀ (w : Word) (i : Instr), decode w = .ok i → encode i = w

/-- R81 and R82: each field of the two formats stands at its bits. -/
def Obligations.FormatFieldsStandAtTheirBits : Prop :=
  (∀ (op : BitVec 8) (rd rs1 rs2 rs3 rd2 rd3 : Reg),
    let w := formatR op rd rs1 rs2 rs3 rd2 rd3
    w.toNat % 2 ^ 8 = op.toNat ∧ w.toNat / 2 ^ 8 % 16 = rd.val ∧ w.toNat / 2 ^ 12 % 16 = rs1.val ∧
      w.toNat / 2 ^ 16 % 16 = rs2.val ∧ w.toNat / 2 ^ 20 % 16 = rs3.val ∧ w.toNat / 2 ^ 24 % 16 = rd2.val ∧
      w.toNat / 2 ^ 28 % 16 = rd3.val ∧ opcodeField w = op ∧ rdField w = rd ∧ rs1Field w = rs1 ∧
      rs2Field w = rs2 ∧ rs3Field w = rs3 ∧ rd2Field w = rd2 ∧ rd3Field w = rd3) ∧
  (∀ (op : BitVec 8) (rd rs1 : Reg) (imm16 : BitVec 16),
    let w := formatI op rd rs1 imm16
    w.toNat % 2 ^ 8 = op.toNat ∧ w.toNat / 2 ^ 8 % 16 = rd.val ∧ w.toNat / 2 ^ 12 % 16 = rs1.val ∧
      w.toNat / 2 ^ 16 = imm16.toNat ∧ opcodeField w = op ∧ rdField w = rd ∧ rs1Field w = rs1 ∧
      immField w = imm16)

/-- R87: a word is illegal exactly when its opcode is in no row or an unused field is nonzero; it is legal exactly
when it selects one row; the listed opcodes and the zero word are illegal; an illegal word written to CMD while idle
ends at once with E_ILLEGAL. -/
def Obligations.IllegalWordsAreExactlyThoseOfNoRow : Prop :=
  (∀ w : Word, (∃ e, decode w = .error e) ↔
    ((∀ row ∈ opcodeMap, opcodeField row.bits ≠ opcodeField w) ∨
      ∃ row ∈ opcodeMap, opcodeField row.bits = opcodeField w ∧ w &&& row.mask ≠ row.bits)) ∧
  (∀ w : Word, (∃ i, decode w = .ok i) ↔ ∃! row, row ∈ opcodeMap ∧ w &&& row.mask = row.bits) ∧
  (∀ w : Word, let n := (opcodeField w).toNat
    n = 0 ∨ (0x08 ≤ n ∧ n ≤ 0x0F) ∨ (0x12 ≤ n ∧ n ≤ 0x1F) ∨ (0x22 ≤ n ∧ n ≤ 0x2F) ∨ 0x32 ≤ n →
      decode w = .error .unknownOpcode) ∧
  (∃ e, decode 0 = .error e) ∧
  (∀ (s : State) (w : Word) (e : Illegal), s.engine = .idle → decode w = .error e →
    ∃ t, stepOn (.write .w32 0x014 w) s = .next t ∧ EndedWith s t .illegal w s.port)

/-- Words written out from the spec's encodings decode to the commands they stand for (30_encoding.md R90;
40_arith.md to 43_euclid.md, the examples of the command rules). -/
def Obligations.SpecWordsDecodeToTheirCommands : Prop :=
  decode 0x00021301 = .ok (.add 3 1 2) ∧ decode 0x04021304 = .ok (.divmod 3 4 1 2) ∧
    decode 0x00001206 = .ok (.mov 2 1) ∧ decode 0x002A0407 = .ok (.ldi 4 42) ∧
    decode 0x00321410 = .ok (.modmul 4 1 2 3) ∧ decode 0x00210311 = .ok (.modexp 3 0 1 2) ∧
    decode 0x00031220 = .ok (.mrtest 2 1 3) ∧ decode 0x00000121 = .ok (.primegen 1) ∧
    decode 0x54021330 = .ok (.egcd 3 4 5 1 2) ∧ decode 0x00021331 = .ok (.modinv 3 1 2)

/-! ### Registers (10_state.md) -/

/-- R21: the value of a register is the signed sum of its limbs, limb 0 least significant. -/
def Obligations.RegisterValueIsSignedLimbSum : Prop :=
  ∀ (s : State) (r : Reg), s.limbs[r].length = s.params.nlimb →
    s.x r = (if s.sign.getLsbD r.val then -1 else 1) *
      ((∑ j ∈ Finset.range s.params.nlimb, ((s.limbs[r][j]?).getD 0).toNat * 2 ^ (32 * j) : Nat) : Int)

/-- R20: in every state that meets the invariant, every register holds a value of magnitude below `2^W`, and so
does every operand a command in progress sees (R26). -/
def Obligations.RegistersAndOperandsStayBelowTwoPowW : Prop :=
  ∀ (s : State) (r : Reg), s.Inv →
    (s.x r).natAbs < 2 ^ s.params.width ∧ (s.operand r).natAbs < 2 ^ s.params.width

/-- R22: a zero magnitude is the value 0 at either sign; a successful command writes 0 with SIGN 0 and any other
value with the sign of the value; a host read of SIGN gives the bits last written, by the host or by a command. A host write
of SIGN changes nothing but SIGN (R38). -/
def Obligations.ZeroAndSignAreNormalisedByCommands : Prop :=
  (∀ (s : State) (r : Reg), s.magnitude r = 0 → s.x r = 0) ∧
  (∀ (i : Instr) (s t : State) (r : Reg), s.Inv → i.wf = true → exec i s = .next t → t.busy = false →
    t.error = none → r ∈ destsOf i →
      t.signBit r = decide (t.x r < 0) ∧ t.magnitude r = (t.x r).natAbs ∧
        (t.memRead 0x020).getLsbD r.val = decide (t.x r < 0)) ∧
  (∀ (s : State) (v : Word), ∃ t, stepOn (.write .w32 0x020 v) s = .next t ∧
    t.memRead 0x020 = v &&& 0xFFFF ∧ (∀ r : Reg, t.signBit r = v.getLsbD r.val) ∧ { t with sign := s.sign } = s)

/-! ### Reset (10_state.md R41, 70_reset_and_hazards.md R190) -/

/-- R41: the reset state is the table's. -/
def Obligations.ResetStateIsTheTable : Prop := AtReset State.reset

/-- R190: RST and CTRL.SRST bring every state to the table of R41 in one step and have the same effect; a command in
progress leaves no commit, no DONE and no error record, and the next CMD write is an acceptance. -/
def Obligations.BothResetsReachTheTable : Prop :=
  ∀ (s : State) (v : Word), v.getLsbD 1 = true →
    ∃ t, stepOn .resetPin s = .next t ∧ stepOn (.write .w32 0x00C v) s = .next t ∧ AtReset t ∧
      t.params = s.params ∧
      ∀ i : Instr, i.wf = true → ∃ u l, stepOn (.write .w32 0x014 (encode i)) t = .next u ∧ u.engine = .busy l ∧
        l.word = encode i

/-- The model's choice of log entry 13: a reset leaves what is outside the NTE, which is the coming events, the random
source with its count of draws, and the word the host read last. -/
def Obligations.ResetLeavesWhatIsOutsideTheEngine : Prop :=
  ∀ s : State, ∃ t, stepOn .resetPin s = .next t ∧ t.port = s.port ∧ t.inputs = s.inputs ∧
    t.lastRead = s.lastRead

/-- The reset state meets the invariant. -/
def Obligations.ResetMeetsTheInvariant : Prop := State.reset.Inv

/-- Every step of the machine keeps the invariant: valid parameters, NLIMB limbs in every register, DONE and ERR 0
while busy, a latch as acceptance makes it, fewer candidates than the cap. -/
def Obligations.EveryStepKeepsTheInvariant : Prop :=
  ∀ s t : State, s.Inv → step s = .next t → t.Inv

/-! ### Steps, acceptance and the order of events -/

/-- When the latched word decodes to `i`, the engine's turn is `exec i`, at the state with the turn taken out of the
coming events. That the engine has the turn when no event is to come is the model's choice, log entry 2. -/
def Obligations.EngineTurnRunsTheLatchedCommand : Prop :=
  ∀ (s : State) (l : Latch) (i : Instr), s.engine = .busy l → decode l.word = .ok i →
    (s.inputs = [] → step s = exec i s) ∧ stepOn .engineTurn s = exec i s

/-- A command word placed by `withFetchWord` is run by the very next step, on the live registers (log entry 9). -/
def Obligations.PlacedWordRunsAtTheNextStep : Prop :=
  ∀ (s : State) (w : Nat) (i : Instr), w < 2 ^ 32 → decodeTableWord 32 w = some i →
    ∃ u, step (s.withFetchWord 32 w) = exec i u ∧ u.limbs = s.limbs ∧ u.sign = s.sign ∧ u.params = s.params ∧
      u.inputs = s.inputs ∧ u.port = s.port ∧ u.candidatesSoFar = 0 ∧ u.capInForce = s.pgcap ∧
      u.commandWord i = BitVec.ofNat 32 w ∧ ∀ r ∈ sourcesOf i, u.operand r = s.x r

/-- R26: a CMD write while idle decodes the word; an illegal word, then one with coinciding destinations, ends at once
with its error; any other is latched with its source values and PGCAP, BUSY becomes 1 and DONE, ERR and ERRCODE 0;
later host writes to registers, SIGN and PGCAP do not change the command's inputs. -/
def Obligations.AcceptanceLatchesTheCommand : Prop :=
  (∀ (s : State) (w : Word), s.engine = .idle →
    (∀ e, decode w = .error e →
      ∃ t, stepOn (.write .w32 0x014 w) s = .next t ∧ EndedWith s t .illegal w s.port) ∧
    (∀ i, decode w = .ok i → i.wf = false →
      ∃ t, stepOn (.write .w32 0x014 w) s = .next t ∧ EndedWith s t .operand w s.port) ∧
    (∀ i, decode w = .ok i → i.wf = true →
      ∃ t l, stepOn (.write .w32 0x014 w) s = .next t ∧ t.engine = .busy l ∧ l.word = w ∧ l.cap = s.pgcap ∧
        (∀ r ∈ sourcesOf i, l.sources.lookup r = some (s.x r)) ∧ t.busy = true ∧ t.done = false ∧
        t.err = false ∧ t.errcode = 0 ∧ t.candidates = 0 ∧ (∀ r, SameReg s t r) ∧ t.errcmd = s.errcmd ∧
        t.port = s.port ∧ SameControls s t)) ∧
  (∀ (s t : State) (l : Latch) (offset : Offset) (v : Word), s.engine = .busy l →
    isOperandWindow (windowReg s.params offset.toNat) = true →
    stepOn (.write .w32 offset v) s = .next t →
      t.capInForce = s.capInForce ∧ ∀ r ∈ l.sources.map Prod.fst, t.operand r = s.operand r)

/-- R163: an illegal word reports E_ILLEGAL and a word with coinciding destinations E_OPERAND, at the CMD write
itself; BUSY stays 0, nothing is latched, and E_ILLEGAL wins on a word that is both. -/
def Obligations.AcceptanceTimeErrorsNeverMakeTheEngineBusy : Prop :=
  ∀ s : State, s.engine = .idle →
    (∀ w e, decode w = .error e →
      ∃ t, stepOn (.write .w32 0x014 w) s = .next t ∧ t.busy = false ∧ t.candidates = s.candidates ∧
        EndedWith s t .illegal w s.port) ∧
    (∀ w i, decode w = .ok i → i.wf = false →
      ∃ t, stepOn (.write .w32 0x014 w) s = .next t ∧ t.busy = false ∧ t.candidates = s.candidates ∧
        EndedWith s t .operand w s.port) ∧
    (∃ t, stepOn (.write .w32 0x014 0x33121330) s = .next t ∧ EndedWith s t .illegal 0x33121330 s.port)

/-- R88: E_OPERAND is raised at acceptance for DIVMOD with `rd == rd2` and EGCD with any two destinations equal, and
for no other command. -/
def Obligations.CoincidingDestinationsAreRejectedAtAcceptance : Prop :=
  (∀ i : Instr, i.wf = false ↔
    (∃ rd rs1 rs2, i = .divmod rd rd rs1 rs2) ∨
      ∃ rd rd2 rd3 rs1 rs2, i = .egcd rd rd2 rd3 rs1 rs2 ∧ (rd = rd2 ∨ rd = rd3 ∨ rd2 = rd3)) ∧
  (∀ (s : State) (i : Instr), s.engine = .idle →
    (i.wf = false → ∃ t, stepOn (.write .w32 0x014 (encode i)) s = .next t ∧
      EndedWith s t .operand (encode i) s.port) ∧
    (i.wf = true → ∃ t, stepOn (.write .w32 0x014 (encode i)) s = .next t ∧ t.busy = true))

/-- R196: a CMD write while busy is dropped, whatever the word; it sets CMDOVR and changes nothing else. -/
def Obligations.CommandWriteWhileBusyIsDropped : Prop :=
  ∀ (s : State) (l : Latch) (w : Word), s.engine = .busy l →
    ∃ t, stepOn (.write .w32 0x014 w) s = .next t ∧ t.cmdovr = true ∧ t.engine = .busy l ∧
      { t with cmdovr := s.cmdovr } = s

/-- R200: every command except PRIMEGEN commits in exactly one engine step; PRIMEGEN takes one engine step per
candidate; host accesses other than a soft reset leave the command in progress in place between engine steps. -/
def Obligations.EveryCommandTakesOneEngineStep : Prop :=
  (∀ (i : Instr) (s : State), (∀ rd, i ≠ .primegen rd) →
    ∃ t, exec i s = .next t ∧ t.busy = false ∧ t.done = true) ∧
  (∀ (rd : Reg) (s : State), ∃ t, exec (.primegen rd) s = .next t ∧ t.candidates = s.candidatesSoFar + 1 ∧
    ((t.busy = false ∧ t.done = true) ∨ (t.busy = true ∧ t.done = false))) ∧
  (∀ (s t : State) (l : Latch) (e : Input), s.engine = .busy l → stepOn e s = .next t →
    ((∃ width offset, e = .read width offset) ∨
      ∃ width offset v, e = .write width offset v ∧ ¬ (windowReg s.params offset.toNat = .ctrl ∧ v.getLsbD 1 = true)) →
    t.engine = .busy l ∧ t.candidates = s.candidates)

/-- R6: with no event to come and no command in progress a step changes nothing (log entry 2). -/
def Obligations.IdleEngineStaysAsItIs : Prop :=
  ∀ s : State, s.engine = .idle → (s.inputs = [] → step s = .next s) ∧ stepOn .engineTurn s = .next s

/-- The only way a step stops is a bus error of a host access that is not 32 bits wide or not aligned; nothing is
refused (20_memory.md R53 to R55). -/
def Obligations.StepsStopOnlyOnBusErrors : Prop :=
  ∀ s : State, SafeStep s ∨
    (step s = .fault .busError ∧ ∃ e es, s.inputs = e :: es ∧ ∃ width offset,
      (e = .read width offset ∨ ∃ v, e = .write width offset v) ∧ (width ≠ .w32 ∨ offset.toNat % 4 ≠ 0))

/-! ### The large-integer support commands (40_arith.md)

From here to the Euclidean unit a command runs as `exec i s`. In a busy state `s.operand` is the latched value, as the
rules mean `x[rs]`; in an idle state `exec` stands for the acceptance and the engine step together (log entry 10). -/

/-- R101: ADD commits the exact sum, or ends with E_OVERFLOW when it does not fit. -/
def Obligations.AddCommitsTheExactSum : Prop :=
  ∀ (s : State) (rd rs1 rs2 : Reg),
    let i := Instr.add rd rs1 rs2
    let v := s.operand rs1 + s.operand rs2
    encode i = formatR 0x01 rd rs1 rs2 0 0 0 ∧ encode i &&& 0xFFF000FF = 0x00000001 ∧
    (v.natAbs < 2 ^ s.params.width → ∃ t, exec i s = .next t ∧ Committed s t [(rd, v)] s.port) ∧
    (2 ^ s.params.width ≤ v.natAbs →
      ∃ t, exec i s = .next t ∧ EndedWith s t .overflow (s.commandWord i) s.port)

/-- R102: SUB commits the exact difference, or ends with E_OVERFLOW when it does not fit. -/
def Obligations.SubCommitsTheExactDifference : Prop :=
  ∀ (s : State) (rd rs1 rs2 : Reg),
    let i := Instr.sub rd rs1 rs2
    let v := s.operand rs1 - s.operand rs2
    encode i = formatR 0x02 rd rs1 rs2 0 0 0 ∧ encode i &&& 0xFFF000FF = 0x00000002 ∧
    (v.natAbs < 2 ^ s.params.width → ∃ t, exec i s = .next t ∧ Committed s t [(rd, v)] s.port) ∧
    (2 ^ s.params.width ≤ v.natAbs →
      ∃ t, exec i s = .next t ∧ EndedWith s t .overflow (s.commandWord i) s.port)

/-- R103: MUL commits the exact product, or ends with E_OVERFLOW when it does not fit. -/
def Obligations.MulCommitsTheExactProduct : Prop :=
  ∀ (s : State) (rd rs1 rs2 : Reg),
    let i := Instr.mul rd rs1 rs2
    let v := s.operand rs1 * s.operand rs2
    encode i = formatR 0x03 rd rs1 rs2 0 0 0 ∧ encode i &&& 0xFFF000FF = 0x00000003 ∧
    (v.natAbs < 2 ^ s.params.width → ∃ t, exec i s = .next t ∧ Committed s t [(rd, v)] s.port) ∧
    (2 ^ s.params.width ≤ v.natAbs →
      ∃ t, exec i s = .next t ∧ EndedWith s t .overflow (s.commandWord i) s.port)

/-- R104: DIVMOD commits the floor quotient and the remainder, or ends with the first error that applies. -/
def Obligations.DivmodCommitsQuotientAndRemainder : Prop :=
  ∀ (s : State) (rd rd2 rs1 rs2 : Reg), s.Inv →
    let i := Instr.divmod rd rd2 rs1 rs2
    let a := s.operand rs1
    let b := s.operand rs2
    encode i = formatR 0x04 rd rs1 rs2 0 rd2 0 ∧ encode i &&& 0xF0F000FF = 0x00000004 ∧
    (rd = rd2 → s.engine = .idle →
      ∃ t, stepOn (.write .w32 0x014 (encode i)) s = .next t ∧ EndedWith s t .operand (encode i) s.port) ∧
    (rd ≠ rd2 → a < 0 ∨ b < 0 → ∃ t, exec i s = .next t ∧ EndedWith s t .domain (s.commandWord i) s.port) ∧
    (rd ≠ rd2 → 0 ≤ a → b = 0 → ∃ t, exec i s = .next t ∧ EndedWith s t .divZero (s.commandWord i) s.port) ∧
    (rd ≠ rd2 → 0 ≤ a → 1 ≤ b → ∃ q r t, exec i s = .next t ∧ Committed s t [(rd, q), (rd2, r)] s.port ∧
      a = q * b + r ∧ 0 ≤ r ∧ r < b)

/-- R105: CMP commits -1, 0 or 1. -/
def Obligations.CmpCommitsTheThreeWayComparison : Prop :=
  ∀ (s : State) (rd rs1 rs2 : Reg), s.Inv →
    let i := Instr.cmp rd rs1 rs2
    let a := s.operand rs1
    let b := s.operand rs2
    encode i = formatR 0x05 rd rs1 rs2 0 0 0 ∧ encode i &&& 0xFFF000FF = 0x00000005 ∧
    (a < b → ∃ t, exec i s = .next t ∧ Committed s t [(rd, -1)] s.port) ∧
    (a = b → ∃ t, exec i s = .next t ∧ Committed s t [(rd, 0)] s.port) ∧
    (b < a → ∃ t, exec i s = .next t ∧ Committed s t [(rd, 1)] s.port)

/-- R106: MOV commits the source's value. -/
def Obligations.MovCommitsTheSource : Prop :=
  ∀ (s : State) (rd rs1 : Reg), s.Inv →
    let i := Instr.mov rd rs1
    encode i = formatR 0x06 rd rs1 0 0 0 0 ∧ encode i &&& 0xFFFF00FF = 0x00000006 ∧
    encode .nop = 0x00000006 ∧
    ∃ t, exec i s = .next t ∧ Committed s t [(rd, s.operand rs1)] s.port

/-- R107: LDI commits the zero-extended immediate; a word of LDI with a nonzero `rs1` field is illegal and ends with
E_ILLEGAL at acceptance. -/
def Obligations.LdiCommitsTheImmediate : Prop :=
  ∀ (s : State) (rd : Reg) (imm16 : BitVec 16), s.Inv →
    let i := Instr.ldi rd imm16
    encode i = formatI 0x07 rd 0 imm16 ∧ encode i &&& 0x0000F0FF = 0x00000007 ∧
    (∀ rs1 : Reg, rs1 ≠ 0 →
      let w := formatI 0x07 rd rs1 imm16
      decode w = .error .unusedField ∧
        (s.engine = .idle → ∃ t, stepOn (.write .w32 0x014 w) s = .next t ∧ EndedWith s t .illegal w s.port)) ∧
    ∃ t, exec i s = .next t ∧ Committed s t [(rd, (imm16.toNat : Int))] s.port

/-! ### The modular exponentiation unit (41_modexp.md) -/

/-- R120: POWER is the value `base^e mod m` for every `m ≥ 1`. -/
def Obligations.PowerIsTheModularPower : Prop :=
  (∀ base e m : Nat, 1 ≤ m → power base e m = base ^ e % m) ∧ (∀ base e : Nat, power base e 1 = 0)

/-- R121: MODMUL commits `(a·b) mod m`, or ends with the first error that applies. -/
def Obligations.ModmulCommitsTheProductModM : Prop :=
  ∀ (s : State) (rd rs1 rs2 rs3 : Reg), s.Inv →
    let i := Instr.modmul rd rs1 rs2 rs3
    let a := s.operand rs1
    let b := s.operand rs2
    let m := s.operand rs3
    encode i = formatR 0x10 rd rs1 rs2 rs3 0 0 ∧ encode i &&& 0xFF0000FF = 0x00000010 ∧
    (a < 0 ∨ b < 0 ∨ m < 0 → ∃ t, exec i s = .next t ∧ EndedWith s t .domain (s.commandWord i) s.port) ∧
    (0 ≤ a → 0 ≤ b → m = 0 → ∃ t, exec i s = .next t ∧ EndedWith s t .divZero (s.commandWord i) s.port) ∧
    (0 ≤ a → 0 ≤ b → 1 ≤ m → ∃ t, exec i s = .next t ∧ Committed s t [(rd, a * b % m)] s.port)

/-- R122: MODEXP commits `base^e mod m`, or ends with the first error that applies. -/
def Obligations.ModexpCommitsThePowerModM : Prop :=
  ∀ (s : State) (rd rs1 rs2 rs3 : Reg), s.Inv →
    let i := Instr.modexp rd rs1 rs2 rs3
    let base := s.operand rs1
    let e := s.operand rs2
    let m := s.operand rs3
    encode i = formatR 0x11 rd rs1 rs2 rs3 0 0 ∧ encode i &&& 0xFF0000FF = 0x00000011 ∧
    (base < 0 ∨ e < 0 ∨ m < 0 → ∃ t, exec i s = .next t ∧ EndedWith s t .domain (s.commandWord i) s.port) ∧
    (0 ≤ base → 0 ≤ e → m = 0 → ∃ t, exec i s = .next t ∧ EndedWith s t .divZero (s.commandWord i) s.port) ∧
    (0 ≤ base → 0 ≤ e → 1 ≤ m →
      ∃ t, exec i s = .next t ∧ Committed s t [(rd, base ^ e.toNat % m)] s.port)

/-! ### The primality tester and the prime generator (42_primality.md) -/

/-- R132: every witness lies in `[2, min(n - 1, 100000)]`, and every integer of that range is the witness of some
answer of the port. How the port holds its answers is log entry 3. -/
def Obligations.WitnessesLieInTheirRange : Prop :=
  ∀ n : Nat, 3 ≤ n →
    (∀ (p : Port) (t : Nat), 2 ≤ witnessAt n p t ∧ witnessAt n p t ≤ min (n - 1) 100000) ∧
    (∀ (p : Port) (a : Nat), 2 ≤ a → a ≤ min (n - 1) 100000 →
      (drawWitness 2 (witnessMax n) { p with answers := a :: p.answers }) = (a, { p with drawn := p.drawn + 1 }))

/-- R133 with R130 to R132: MRTEST reports a negative `n` and 1 as E_DOMAIN, gives 0 for even `n` without a draw, and
otherwise draws one witness per trial: 1 when all trials pass, 0 at the first that fails, which draws no more.
`witnessAt` is whatever witness the port gives a draw, and nothing here rests on which it is (log entry 3). -/
def Obligations.MrtestRunsItsTrialsInOrder : Prop :=
  ∀ (s : State) (rd rs1 : Reg) (imm16 : BitVec 16), s.Inv →
    let i := Instr.mrtest rd rs1 imm16
    let n := s.operand rs1
    let passes := fun t => PassesTrial n.toNat (witnessAt n.toNat s.port t)
    encode i = formatI 0x20 rd rs1 imm16 ∧ encode i &&& 0x000000FF = 0x00000020 ∧
    (n < 0 ∨ n = 1 → ∃ t, exec i s = .next t ∧ EndedWith s t .domain (s.commandWord i) s.port) ∧
    (0 ≤ n → n % 2 = 0 → ∃ t, exec i s = .next t ∧ Committed s t [(rd, 0)] s.port) ∧
    (3 ≤ n → n % 2 = 1 → (∀ t < imm16.toNat, passes t) →
      ∃ t, exec i s = .next t ∧ Committed s t [(rd, 1)] (s.port.after imm16.toNat)) ∧
    (3 ≤ n → n % 2 = 1 → ∀ fails < imm16.toNat, (∀ t < fails, passes t) → ¬ passes fails →
      ∃ t, exec i s = .next t ∧ Committed s t [(rd, 0)] (s.port.after (fails + 1)))

/-- R139: MRTEST gives 1 for every odd prime, whatever the random port answers. -/
def Obligations.MrtestAcceptsEveryOddPrime : Prop :=
  ∀ (s : State) (rd rs1 : Reg) (imm16 : BitVec 16) (p : Nat), s.Inv → p.Prime → p ≠ 2 → s.operand rs1 = p →
    ∃ t, exec (.mrtest rd rs1 imm16) s = .next t ∧ Committed s t [(rd, 1)] (s.port.after imm16.toNat)

/-- C2 of 90_conflicts.md: one round of MRTEST on the composite 561 commits 1 when its draw gives the strong liar 50,
and 0 when it gives 2, from states that differ in the random port alone. Each uses one draw. The port as a list of
answers is log entry 3. -/
def Obligations.MrtestOnACompositeDependsOnItsDraws : Prop :=
  ∀ (s : State) (rd rs1 : Reg) (p : Port), s.Inv → s.operand rs1 = 561 →
    let drawing := fun a => { s with port := { p with answers := a :: p.answers } }
    let drawn := { p with drawn := p.drawn + 1 }
    (∃ t, exec (.mrtest rd rs1 1) (drawing 50) = .next t ∧ Committed (drawing 50) t [(rd, 1)] drawn) ∧
      ∃ t, exec (.mrtest rd rs1 1) (drawing 2) = .next t ∧ Committed (drawing 2) t [(rd, 0)] drawn

/-- R134: a candidate of `L` bytes is the big-endian number of the drawn bytes with the top bit of the first and the
bottom bit of the last forced; it is odd and has bit length exactly `8·L`. The port answers each byte draw (log entry
3). -/
def Obligations.CandidatesAreFormedFromTheDrawnBytes : Prop :=
  ∀ (length : Nat) (p : Port), 1 ≤ length →
    let drawn := fun i => (BitVec.ofNat 8 (p.answer i) : Byte)
    let top := fun i => if i = 0 then drawn i ||| 0x80 else drawn i
    let forced := fun i => if i = length - 1 then top i ||| 0x01 else top i
    let c := (candidate length p).1
    c = ∑ i ∈ Finset.range length, (forced i).toNat * 256 ^ (length - 1 - i) ∧
      (candidate length p).2 = p.after length ∧ c % 2 = 1 ∧ 2 ^ (8 * length - 1) ≤ c ∧ c < 2 ^ (8 * length)

/-- R135 and R136: one engine step of PRIMEGEN draws one candidate and tests it with 20 rounds: a pass commits it; a
rejection ends with E_PGCAP when it is the cap-th, and otherwise leaves the engine busy with the same latch. -/
def Obligations.PrimegenStepTestsOneCandidate : Prop :=
  ∀ (s : State) (rd : Reg), s.Inv →
    let i := Instr.primegen rd
    let length := s.params.pgLen
    let c := (candidate length s.port).1
    let k := s.candidatesSoFar + 1
    let cap := s.capInForce
    let passes := fun t => PassesTrial c (witnessAt c (s.port.after length) t)
    encode i = formatR 0x21 rd 0 0 0 0 0 ∧ encode i &&& 0xFFFFF0FF = 0x00000021 ∧
    ((∀ t < 20, passes t) →
      ∃ t, exec i s = .next t ∧ Committed s t [(rd, (c : Int))] (s.port.after (length + 20))) ∧
    (∀ fails < 20, (∀ t < fails, passes t) → ¬ passes fails →
      (cap ≠ 0 → k = cap.toNat →
        ∃ t, exec i s = .next t ∧ EndedWith s t .pgCap (s.commandWord i) (s.port.after (length + fails + 1))) ∧
      (cap = 0 ∨ k ≠ cap.toNat →
        ∃ t, exec i s = .next t ∧ t.engine = .busy (s.latchInForce i) ∧ t.candidates = k ∧ t.done = false ∧
          t.err = false ∧ (∀ r, SameReg s t r) ∧ t.errcmd = s.errcmd ∧ SameControls s t ∧
          t.port = s.port.after (length + fails + 1)))

/-- A value PRIMEGEN commits is odd, non-negative and of bit length exactly `8·PG_LEN` (R134, R135). -/
def Obligations.PrimegenCommitsOddFullLengthValues : Prop :=
  ∀ (s t : State) (rd : Reg), s.Inv → exec (.primegen rd) s = .next t → t.busy = false → t.error = none →
    t.x rd % 2 = 1 ∧ 2 ^ (8 * s.params.pgLen - 1) ≤ t.x rd ∧ t.x rd < 2 ^ (8 * s.params.pgLen) ∧
      t.signBit rd = false

/-- R136: with a latched cap of `c ≥ 1`, a PRIMEGEN left alone ends within the candidates the cap leaves it, whatever
the random port answers. Left alone means that no event is to come, when the engine has every turn: the model's choice,
log entry 2. -/
def Obligations.CappedPrimegenEndsWithinItsCap : Prop :=
  ∀ (s : State) (l : Latch) (rd : Reg), s.Inv → s.engine = .busy l → decode l.word = .ok (.primegen rd) →
    s.inputs = [] → l.cap ≠ 0 →
      ∃ n t, n ≤ l.cap.toNat - s.candidates ∧ Host.Core.run Sys2Proof.core n s = .next t ∧ t.busy = false ∧
        t.done = true

/-- R137: an uncapped PRIMEGEN, to any register, has no bound on its engine steps: for every number of steps some draws
keep it busy. That every step of a run without events to come is an engine step is the model's choice, log entry 2; the
draws stand in the port as in log entry 3. -/
def Obligations.UncappedPrimegenHasNoBound : Prop :=
  ∀ (n : Nat) (rd : Reg), ∃ (s t : State) (l : Latch), s.Inv ∧ s.engine = .busy l ∧
    decode l.word = .ok (.primegen rd) ∧ l.cap = 0 ∧ s.inputs = [] ∧ Host.Core.run Sys2Proof.core n s = .next t ∧ t.busy = true ∧
    t.candidates = s.candidates + n

/-! ### The extended Euclidean unit (43_euclid.md) -/

/-- R150: EGCD is the source's descent with the spec's back-substitution, and meets its contract. -/
def Obligations.EgcdIsTheDescentAndMeetsItsContract : Prop :=
  (∀ a : Nat, egcd a 0 = ((a : Int), 1, 0)) ∧
  (∀ a b : Nat, b ≠ 0 → egcd a b = ((egcd b (a % b)).1, (egcd b (a % b)).2.2,
    (egcd b (a % b)).2.1 - ((a / b : Nat) : Int) * (egcd b (a % b)).2.2)) ∧
  (∀ a b : Nat, (egcd a b).1 = (Nat.gcd a b : Int) ∧
    (a : Int) * (egcd a b).2.1 + (b : Int) * (egcd a b).2.2 = (egcd a b).1)

/-- R154: the coefficients are bounded by `|x| ≤ max(b, 1)` and `|y| ≤ max(a, 1)`. -/
def Obligations.EgcdCoefficientsAreBounded : Prop :=
  ∀ a b : Nat, (egcd a b).2.1.natAbs ≤ max b 1 ∧ (egcd a b).2.2.natAbs ≤ max a 1

/-- R151: EGCD commits the gcd and both coefficients exactly, or ends with the first error that applies. -/
def Obligations.EgcdCommitsGcdAndCoefficients : Prop :=
  ∀ (s : State) (rd rd2 rd3 rs1 rs2 : Reg), s.Inv →
    let i := Instr.egcd rd rd2 rd3 rs1 rs2
    let a := s.operand rs1
    let b := s.operand rs2
    let e := egcd a.toNat b.toNat
    encode i = formatR 0x30 rd rs1 rs2 0 rd2 rd3 ∧ encode i &&& 0x00F000FF = 0x00000030 ∧
    (rd = rd2 ∨ rd = rd3 ∨ rd2 = rd3 → s.engine = .idle →
      ∃ t, stepOn (.write .w32 0x014 (encode i)) s = .next t ∧ EndedWith s t .operand (encode i) s.port) ∧
    (i.wf = true → a < 0 ∨ b < 0 →
      ∃ t, exec i s = .next t ∧ EndedWith s t .domain (s.commandWord i) s.port) ∧
    (i.wf = true → 0 ≤ a → 0 ≤ b →
      ∃ t, exec i s = .next t ∧ Committed s t [(rd, e.1), (rd2, e.2.1), (rd3, e.2.2)] s.port ∧
        e.1 = (Int.gcd a b : Int) ∧ a * e.2.1 + b * e.2.2 = e.1)

/-- R152: MODINV commits the normalised coefficient, which is the inverse for every `m ≥ 2`, or ends with the first
error that applies. -/
def Obligations.ModinvCommitsTheInverse : Prop :=
  ∀ (s : State) (rd rs1 rs2 : Reg), s.Inv →
    let i := Instr.modinv rd rs1 rs2
    let a := s.operand rs1
    let m := s.operand rs2
    encode i = formatR 0x31 rd rs1 rs2 0 0 0 ∧ encode i &&& 0xFFF000FF = 0x00000031 ∧
    (a < 0 ∨ m < 0 → ∃ t, exec i s = .next t ∧ EndedWith s t .domain (s.commandWord i) s.port) ∧
    (0 ≤ a → m = 0 → ∃ t, exec i s = .next t ∧ EndedWith s t .divZero (s.commandWord i) s.port) ∧
    (0 ≤ a → 1 ≤ m → Int.gcd a m ≠ 1 →
      ∃ t, exec i s = .next t ∧ EndedWith s t .noInverse (s.commandWord i) s.port) ∧
    (0 ≤ a → 1 ≤ m → Int.gcd a m = 1 →
      ∃ v t, exec i s = .next t ∧ Committed s t [(rd, v)] s.port ∧
        v = (egcd a.toNat m.toNat).2.1 % m ∧ 0 ≤ v ∧ v < m ∧ (2 ≤ m → a * v % m = 1))

/-! ### Errors and frames (60_exceptions.md) -/

/-- R162: a command that ends with an error changes DONE, ERR, ERRCODE and ERRCMD, and no register. -/
def Obligations.FailingCommandRecordsItsErrorOnly : Prop :=
  ∀ (i : Instr) (s t : State) (code : ErrorCode), exec i s = .next t → t.error = some code →
    EndedWith s t code (s.commandWord i) t.port

/-- R161: the error numbers, and which commands' commits report which error; ERRCODE is never above 7. A command with
coinciding destinations, which no acceptance lets through, ends with E_OPERAND in `exec` too (log entry 14). -/
def Obligations.ErrorsComeFromTheCommandsThatMayReportThem : Prop :=
  (∀ (i : Instr) (s t : State) (code : ErrorCode), exec i s = .next t → t.error = some code →
    mayReport code i = true) ∧
  (∀ (i : Instr) (s : State), i.wf = false →
    ∃ t, exec i s = .next t ∧ EndedWith s t .operand (s.commandWord i) s.port) ∧
  (∀ s : State, s.errcode.toNat ≤ 7 ∧ (s.errcode = 0 ↔ s.err = false)) ∧
  ErrorCode.illegal.number = 1 ∧ ErrorCode.operand.number = 2 ∧ ErrorCode.domain.number = 3 ∧
  ErrorCode.divZero.number = 4 ∧ ErrorCode.overflow.number = 5 ∧ ErrorCode.noInverse.number = 6 ∧
  ErrorCode.pgCap.number = 7

/-- The frame of all thirteen commands: IE, CMDOVR, PGCAP, the parameters and every register that is no destination
stay; ERRCMD changes on an error only; only MRTEST and PRIMEGEN draw from the port, and only PRIMEGEN changes `k`; every
window register but STATUS, ERRCMD, SIGN and the destinations' limbs reads as before (10_state.md R27, R36 to R39;
20_memory.md R51). -/
def Obligations.CommandsChangeNothingElse : Prop :=
  ∀ (i : Instr) (s t : State), exec i s = .next t →
    SameControls s t ∧ (∀ r, r ∉ destsOf i → SameReg s t r) ∧ (t.err = false → t.errcmd = s.errcmd) ∧
    (drawsRandom i = false → t.port = s.port) ∧ ((∀ rd, i ≠ .primegen rd) → t.candidates = s.candidates) ∧
    (∀ offset : Offset, mayChange i (windowReg s.params offset.toNat) = false → t.memRead offset = s.memRead offset)

/-- The latched inputs decide a command's result: two states that agree on the engine, the parameters, the port and
`k` give the same error, engine, port and `k`, and on success the same destinations, whatever their registers, SIGN
and PGCAP hold (10_state.md R26, 00_scope.md R11). -/
def Obligations.LatchedInputsDecideTheResult : Prop :=
  ∀ (i : Instr) (s s' t t' : State) (l : Latch), s.engine = .busy l → s'.engine = .busy l →
    sourcesOf i = l.sources.map Prod.fst → s'.params = s.params → s'.port = s.port →
    s'.candidates = s.candidates → exec i s = .next t → exec i s' = .next t' →
      t'.error = t.error ∧ t'.engine = t.engine ∧ t'.done = t.done ∧ t'.port = t.port ∧
        t'.candidates = t.candidates ∧
        (t.busy = false → t.error = none → ∀ r ∈ destsOf i, SameReg t t' r)

/-- R198: a host write to an operand register, SIGN or PGCAP while busy does not reach the command in progress; on
success the commit overwrites the destinations, on an error the host's writes stay. -/
def Obligations.HostWritesWhileBusyDoNotReachTheCommand : Prop :=
  ∀ (s : State) (l : Latch) (i : Instr) (offset : Offset) (v : Word), s.Inv → s.engine = .busy l →
    decode l.word = .ok i → offset.toNat % 4 = 0 → isOperandWindow (windowReg s.params offset.toNat) = true →
      ∃ u, stepOn (.write .w32 offset v) s = .next u ∧ u.engine = .busy l ∧
        ∀ t t', exec i s = .next t → exec i u = .next t' →
          t'.error = t.error ∧ t'.engine = t.engine ∧ t'.port = t.port ∧ t'.candidates = t.candidates ∧
          (t.busy = false → t.error = none → ∀ r ∈ destsOf i, SameReg t t' r) ∧
          (t.error ≠ none → ∀ r, SameReg u t' r)

/-! ### The register window (20_memory.md) -/

/-- R53 and R54: a host access that is not 32 bits wide or not aligned is a bus error; every other one completes. -/
def Obligations.IllegalAccessesAreBusErrors : Prop :=
  ∀ (s : State) (width : Width) (offset : Offset) (v : Word),
    (width ≠ .w32 ∨ offset.toNat % 4 ≠ 0 →
      stepOn (.read width offset) s = .fault .busError ∧ stepOn (.write width offset v) s = .fault .busError) ∧
    (width = .w32 → offset.toNat % 4 = 0 →
      (∃ t, stepOn (.read width offset) s = .next t) ∧ ∃ t, stepOn (.write width offset v) s = .next t)

/-- A host read gives the host the word of the register and changes nothing in the NTE (R60, R62). -/
def Obligations.HostReadsHaveNoSideEffect : Prop :=
  ∀ (s : State) (offset : Offset), offset.toNat % 4 = 0 →
    ∃ t, stepOn (.read .w32 offset) s = .next t ∧ t.lastRead = some (s.memRead offset) ∧
      { t with lastRead := s.lastRead } = s ∧ ∀ offset' : Offset, t.memRead offset' = s.memRead offset'

/-- R57: limb `L[i][j]` stands at its offset and carries its 32 bits of the magnitude; a host write sets it and
changes no other word of the window. -/
def Obligations.LimbsAreReadAndWrittenAtTheirOffsets : Prop :=
  ∀ (s : State) (i : Reg) (j : Nat), s.Inv → j < s.params.nlimb →
    ∃ offset : Offset, offset.toNat = 0x1000 + 4 * s.params.nlimb * i.val + 4 * j ∧
      s.limbs[i][j]? = some (s.memRead offset) ∧
      (s.memRead offset).toNat = (s.x i).natAbs / 2 ^ (32 * j) % 2 ^ 32 ∧
      ∀ v : Word, ∃ t, stepOn (.write .w32 offset v) s = .next t ∧ t.limbs[i][j]? = some v ∧
        t.memRead offset = v ∧ t.engine = s.engine ∧ t.port = s.port ∧ t.inputs = s.inputs ∧
        (∀ r, r ≠ i → SameReg s t r) ∧ t.signBit i = s.signBit i ∧
        ∀ offset' : Offset, offset'.toNat % 4 = 0 → offset' ≠ offset → t.memRead offset' = s.memRead offset'

/-- R59: reserved offsets read 0 and ignore writes, and so do the reserved bits of every register. CMD reads 0
(10_state.md R35). -/
def Obligations.ReservedOffsetsAndBitsReadZero : Prop :=
  (∀ (s : State) (offset : Offset) (v : Word), s.Inv → offset.toNat % 4 = 0 →
    (0x024 ≤ offset.toNat ∧ offset.toNat ≤ 0x0FFF) ∨ 0x1000 + 64 * s.params.nlimb ≤ offset.toNat →
      s.memRead offset = 0 ∧ stepOn (.write .w32 offset v) s = .next s) ∧
  (∀ s : State, s.memRead 0x004 &&& 0xFF000000 = 0 ∧ s.memRead 0x008 &&& 0xFFFF0000 = 0 ∧
    s.memRead 0x00C &&& 0xFFFFFFFE = 0 ∧ s.memRead 0x010 &&& 0xFFFF00F0 = 0 ∧
    s.memRead 0x020 &&& 0xFFFF0000 = 0 ∧ s.memRead 0x014 = 0) ∧
  (∀ (s : State) (v : Word),
    stepOn (.write .w32 0x00C (v &&& 0x3)) s = stepOn (.write .w32 0x00C v) s ∧
    stepOn (.write .w32 0x010 (v &&& 0xE)) s = stepOn (.write .w32 0x010 v) s ∧
    stepOn (.write .w32 0x020 (v &&& 0xFFFF)) s = stepOn (.write .w32 0x020 v) s)

/-- R30, R31, R32 and R36: ID, PARAM, PGLEN and ERRCMD read as their rules say, ignore writes, and the first three
are the same after a reset. -/
def Obligations.ReadOnlyRegistersIgnoreWrites : Prop :=
  ∀ s : State, s.Inv →
    s.memRead 0x000 = 0x4E540001 ∧
    (s.memRead 0x004).toNat = 16 * 2 ^ 16 + s.params.nlimb ∧ (s.memRead 0x008).toNat = s.params.pgLen ∧
    s.memRead 0x018 = s.errcmd ∧
    (∀ v : Word, stepOn (.write .w32 0x000 v) s = .next s ∧ stepOn (.write .w32 0x004 v) s = .next s ∧
      stepOn (.write .w32 0x008 v) s = .next s ∧ stepOn (.write .w32 0x018 v) s = .next s) ∧
    (∃ t, stepOn .resetPin s = .next t ∧ t.memRead 0x000 = s.memRead 0x000 ∧
      t.memRead 0x004 = s.memRead 0x004 ∧ t.memRead 0x008 = s.memRead 0x008)

/-- R33: CTRL reads IE in bit 0 and zero elsewhere; a write with SRST resets and discards its other bits; any other
write stores IE and changes nothing else. -/
def Obligations.ControlWritesStoreIeOrReset : Prop :=
  ∀ (s : State) (v : Word),
    (s.memRead 0x00C).toNat = s.ie.toNat ∧
    (v.getLsbD 1 = true → ∃ t, stepOn (.write .w32 0x00C v) s = .next t ∧ AtReset t) ∧
    (v.getLsbD 1 = false → ∃ t, stepOn (.write .w32 0x00C v) s = .next t ∧ t.ie = v.getLsbD 0 ∧
      { t with ie := s.ie } = s)

/-- STATUS reads its fields at their bits, and a write clears exactly the W1C bits it has set; clearing ERR clears
ERRCODE with it, and nothing else changes (R34, 60_exceptions.md R166). -/
def Obligations.StatusReadsItsFieldsAndClearsByOne : Prop :=
  ∀ (s : State) (v : Word),
    (s.memRead 0x010).toNat =
      s.busy.toNat + 2 * s.done.toNat + 4 * s.err.toNat + 8 * s.cmdovr.toNat + 256 * s.errcode.toNat ∧
    (s.busy = true ↔ ∃ l, s.engine = .busy l) ∧ (s.err = false → s.errcode = 0) ∧
    ∃ t, stepOn (.write .w32 0x010 v) s = .next t ∧ t.done = (s.done && !v.getLsbD 1) ∧
      t.err = (s.err && !v.getLsbD 2) ∧ t.cmdovr = (s.cmdovr && !v.getLsbD 3) ∧
      t.errcode = (if v.getLsbD 2 then 0 else s.errcode) ∧
      { t with done := s.done, error := s.error, cmdovr := s.cmdovr } = s

/-- PGCAP holds the word last written to it, and a write while busy leaves the cap of the command in progress
(R37). -/
def Obligations.PgcapIsStoredAndLatched : Prop :=
  ∀ (s : State) (v : Word), s.memRead 0x01C = s.pgcap ∧
    ∃ t, stepOn (.write .w32 0x01C v) s = .next t ∧ t.memRead 0x01C = v ∧ { t with pgcap := s.pgcap } = s ∧
      ∀ l, s.engine = .busy l → t.capInForce = l.cap

/-- R168: IRQ is `CTRL.IE AND STATUS.DONE`. It is asserted after every completion while IE is 1, a word rejected at
acceptance included, and deasserted by clearing DONE, by an acceptance, by clearing IE and by a reset. -/
def Obligations.InterruptFollowsEnableAndDone : Prop :=
  (∀ s : State, s.irq = true ↔ s.ie = true ∧ s.done = true) ∧
  (∀ (i : Instr) (s t : State), exec i s = .next t → t.busy = false → t.irq = s.ie) ∧
  (∀ (s : State) (w : Word), s.engine = .idle → (∀ i, decode w = .ok i → i.wf = false) →
    ∃ t, stepOn (.write .w32 0x014 w) s = .next t ∧ t.irq = s.ie) ∧
  (∀ (s : State) (v : Word), v.getLsbD 1 = true → ∃ t, stepOn (.write .w32 0x010 v) s = .next t ∧ t.irq = false) ∧
  (∀ (s : State) (v : Word), v.getLsbD 0 = false → ∃ t, stepOn (.write .w32 0x00C v) s = .next t ∧ t.irq = false) ∧
  (∀ (s : State) (i : Instr), s.engine = .idle → i.wf = true →
    ∃ t, stepOn (.write .w32 0x014 (encode i)) s = .next t ∧ t.irq = false) ∧
  (∀ s : State, ∃ t, stepOn .resetPin s = .next t ∧ t.irq = false)
end

