-- ==== Sys2Proof/Laws/Encoding.lean ====
section
/-!
SUPPORT. Encoded words: each field reads back what was placed in it (30_encoding.md R81, R82), and a mask lets
exactly the fields through that it covers (R85).
-/

namespace Sys2Proof

/-! ### Fields of concatenated bits -/

theorem extract_high {m n : Nat} (x : BitVec m) (y : BitVec n) (k len : Nat) :
    (x ++ y).extractLsb' (n + k) len = x.extractLsb' k len := by
  ext i hi
  have h : ¬ (n + k + i < n) := by omega
  simp [BitVec.getLsbD_append, h, show n + k + i - n = k + i by omega]

theorem extract_low {m n : Nat} (x : BitVec m) (y : BitVec n) : (x ++ y).extractLsb' 0 n = y := by
  ext i hi
  simp [BitVec.getLsbD_append, hi]

theorem extract_all {n : Nat} (x : BitVec n) : x.extractLsb' 0 n = x := by
  ext i hi
  simp

theorem and_ff (op : BitVec 8) : op &&& 0xFF#8 = op := by
  ext i hi
  have : i ∈ Finset.range 8 := by simpa using hi
  interval_cases i <;> simp

/-! ### Format R -/

section FormatR
variable (op : BitVec 8) (rd rs1 rs2 rs3 rd2 rd3 : Reg)

@[simp] theorem opcodeField_formatR : opcodeField (formatR op rd rs1 rs2 rs3 rd2 rd3) = op := extract_low _ op

@[simp] theorem rdField_formatR : rdField (formatR op rd rs1 rs2 rs3 rd2 rd3) = rd :=
  congrArg BitVec.toFin <| (extract_high _ op 0 4).trans (extract_low _ _)

@[simp] theorem rs1Field_formatR : rs1Field (formatR op rd rs1 rs2 rs3 rd2 rd3) = rs1 :=
  congrArg BitVec.toFin <| (extract_high _ op 4 4).trans <|
    (extract_high _ _ 0 4).trans (extract_low _ _)

@[simp] theorem rs2Field_formatR : rs2Field (formatR op rd rs1 rs2 rs3 rd2 rd3) = rs2 :=
  congrArg BitVec.toFin <| (extract_high _ op 8 4).trans <|
    (extract_high _ _ 4 4).trans <|
    (extract_high _ _ 0 4).trans (extract_low _ _)

@[simp] theorem rs3Field_formatR : rs3Field (formatR op rd rs1 rs2 rs3 rd2 rd3) = rs3 :=
  congrArg BitVec.toFin <| (extract_high _ op 12 4).trans <|
    (extract_high _ _ 8 4).trans <|
    (extract_high _ _ 4 4).trans <|
    (extract_high _ _ 0 4).trans (extract_low _ _)

@[simp] theorem rd2Field_formatR : rd2Field (formatR op rd rs1 rs2 rs3 rd2 rd3) = rd2 :=
  congrArg BitVec.toFin <| (extract_high _ op 16 4).trans <|
    (extract_high _ _ 12 4).trans <|
    (extract_high _ _ 8 4).trans <|
    (extract_high _ _ 4 4).trans <|
    (extract_high _ _ 0 4).trans (extract_low _ _)

@[simp] theorem rd3Field_formatR : rd3Field (formatR op rd rs1 rs2 rs3 rd2 rd3) = rd3 :=
  congrArg BitVec.toFin <| (extract_high _ op 20 4).trans <|
    (extract_high _ _ 16 4).trans <|
    (extract_high _ _ 12 4).trans <|
    (extract_high _ _ 8 4).trans <|
    (extract_high _ _ 4 4).trans <|
    (extract_high _ _ 0 4).trans (extract_all _)

/-- Masking a format R word masks each field by its four bits of the mask; the opcode is always kept. -/
theorem formatR_mask (m1 m2 m3 m4 m5 m6 : BitVec 4) :
    formatR op rd rs1 rs2 rs3 rd2 rd3 &&&
        (m6 ++ m5 ++ m4 ++ m3 ++ m2 ++ m1 ++ 0xFF#8 : BitVec (4 + 4 + 4 + 4 + 4 + 4 + 8)) =
      ((BitVec.ofFin (w := 4) rd3 &&& m6) ++ (BitVec.ofFin (w := 4) rd2 &&& m5) ++
        (BitVec.ofFin (w := 4) rs3 &&& m4) ++ (BitVec.ofFin (w := 4) rs2 &&& m3) ++
        (BitVec.ofFin (w := 4) rs1 &&& m2) ++ (BitVec.ofFin (w := 4) rd &&& m1) ++ op :
        BitVec (4 + 4 + 4 + 4 + 4 + 4 + 8)) := by
  conv => rhs; rw [← and_ff op]
  simp only [← BitVec.and_append]
  rfl

end FormatR

/-! ### Format I -/

section FormatI
variable (op : BitVec 8) (rd rs1 : Reg) (imm16 : BitVec 16)

@[simp] theorem opcodeField_formatI : opcodeField (formatI op rd rs1 imm16) = op := extract_low _ op

@[simp] theorem rdField_formatI : rdField (formatI op rd rs1 imm16) = rd :=
  congrArg BitVec.toFin <| (extract_high _ op 0 4).trans (extract_low _ _)

@[simp] theorem rs1Field_formatI : rs1Field (formatI op rd rs1 imm16) = rs1 :=
  congrArg BitVec.toFin <| (extract_high _ op 4 4).trans <| (extract_high _ _ 0 4).trans (extract_low _ _)

@[simp] theorem immField_formatI : immField (formatI op rd rs1 imm16) = imm16 :=
  (extract_high _ op 8 16).trans <| (extract_high _ _ 4 16).trans <|
    (extract_high _ _ 0 16).trans (extract_all _)

/-- Masking a format I word masks each field by its bits of the mask; the opcode is always kept. -/
theorem formatI_mask (m1 m2 : BitVec 4) (m3 : BitVec 16) :
    formatI op rd rs1 imm16 &&& (m3 ++ m2 ++ m1 ++ 0xFF#8 : BitVec (16 + 4 + 4 + 8)) =
      ((imm16 &&& m3) ++ (BitVec.ofFin (w := 4) rs1 &&& m2) ++ (BitVec.ofFin (w := 4) rd &&& m1) ++ op :
        BitVec (16 + 4 + 4 + 8)) := by
  conv => rhs; rw [← and_ff op]
  simp only [← BitVec.and_append]
  rfl

end FormatI

/-- A word whose opcode selects `row` and whose unused fields are zero decodes by that row (30_encoding.md R86). -/
theorem decode_of_row {w : Word} {row : OpcodeRow} (hr : rowOf w = some row) (hm : w &&& row.mask = row.bits) :
    decode w = .ok (operandsOf row.op w) := by
  simp [decode, hr, hm]

end Sys2Proof
end

