-- ==== Sys2Proof/Laws/State.lean ====
section
/-!
SUPPORT. One lemma per field per update of the state, so that no proof unfolds a record update.
-/

namespace Sys2Proof.Machine

/-! ### writeX -/

@[simp] theorem writeX_params (s : State) (r : Reg) (v : Int) : (s.writeX r v).params = s.params := rfl
@[simp] theorem writeX_limbs (s : State) (r : Reg) (v : Int) : (s.writeX r v).limbs = s.limbs.set r (toLimbs s.params.nlimb v.natAbs) := rfl
@[simp] theorem writeX_sign (s : State) (r : Reg) (v : Int) : (s.writeX r v).sign = setSignBit s.sign r (decide (v < 0)) := rfl
@[simp] theorem writeX_engine (s : State) (r : Reg) (v : Int) : (s.writeX r v).engine = s.engine := rfl
@[simp] theorem writeX_candidates (s : State) (r : Reg) (v : Int) : (s.writeX r v).candidates = s.candidates := rfl
@[simp] theorem writeX_ie (s : State) (r : Reg) (v : Int) : (s.writeX r v).ie = s.ie := rfl
@[simp] theorem writeX_done (s : State) (r : Reg) (v : Int) : (s.writeX r v).done = s.done := rfl
@[simp] theorem writeX_error (s : State) (r : Reg) (v : Int) : (s.writeX r v).error = s.error := rfl
@[simp] theorem writeX_cmdovr (s : State) (r : Reg) (v : Int) : (s.writeX r v).cmdovr = s.cmdovr := rfl
@[simp] theorem writeX_errcmd (s : State) (r : Reg) (v : Int) : (s.writeX r v).errcmd = s.errcmd := rfl
@[simp] theorem writeX_pgcap (s : State) (r : Reg) (v : Int) : (s.writeX r v).pgcap = s.pgcap := rfl
@[simp] theorem writeX_port (s : State) (r : Reg) (v : Int) : (s.writeX r v).port = s.port := rfl
@[simp] theorem writeX_inputs (s : State) (r : Reg) (v : Int) : (s.writeX r v).inputs = s.inputs := rfl
@[simp] theorem writeX_lastRead (s : State) (r : Reg) (v : Int) : (s.writeX r v).lastRead = s.lastRead := rfl

/-! ### raise -/

@[simp] theorem raise_params (s : State) (c : ErrorCode) (w : Word) : (s.raise c w).params = s.params := rfl
@[simp] theorem raise_limbs (s : State) (c : ErrorCode) (w : Word) : (s.raise c w).limbs = s.limbs := rfl
@[simp] theorem raise_sign (s : State) (c : ErrorCode) (w : Word) : (s.raise c w).sign = s.sign := rfl
@[simp] theorem raise_engine (s : State) (c : ErrorCode) (w : Word) : (s.raise c w).engine = .idle := rfl
@[simp] theorem raise_candidates (s : State) (c : ErrorCode) (w : Word) : (s.raise c w).candidates = s.candidates := rfl
@[simp] theorem raise_ie (s : State) (c : ErrorCode) (w : Word) : (s.raise c w).ie = s.ie := rfl
@[simp] theorem raise_done (s : State) (c : ErrorCode) (w : Word) : (s.raise c w).done = true := rfl
@[simp] theorem raise_error (s : State) (c : ErrorCode) (w : Word) : (s.raise c w).error = some c := rfl
@[simp] theorem raise_cmdovr (s : State) (c : ErrorCode) (w : Word) : (s.raise c w).cmdovr = s.cmdovr := rfl
@[simp] theorem raise_errcmd (s : State) (c : ErrorCode) (w : Word) : (s.raise c w).errcmd = w := rfl
@[simp] theorem raise_pgcap (s : State) (c : ErrorCode) (w : Word) : (s.raise c w).pgcap = s.pgcap := rfl
@[simp] theorem raise_port (s : State) (c : ErrorCode) (w : Word) : (s.raise c w).port = s.port := rfl
@[simp] theorem raise_inputs (s : State) (c : ErrorCode) (w : Word) : (s.raise c w).inputs = s.inputs := rfl
@[simp] theorem raise_lastRead (s : State) (c : ErrorCode) (w : Word) : (s.raise c w).lastRead = s.lastRead := rfl

/-! ### accept -/

@[simp] theorem accept_params (s : State) (w : Word) (rs : List Reg) : (s.accept w rs).params = s.params := rfl
@[simp] theorem accept_limbs (s : State) (w : Word) (rs : List Reg) : (s.accept w rs).limbs = s.limbs := rfl
@[simp] theorem accept_sign (s : State) (w : Word) (rs : List Reg) : (s.accept w rs).sign = s.sign := rfl
@[simp] theorem accept_engine (s : State) (w : Word) (rs : List Reg) : (s.accept w rs).engine = .busy (s.latchOf w rs) := rfl
@[simp] theorem accept_candidates (s : State) (w : Word) (rs : List Reg) : (s.accept w rs).candidates = 0 := rfl
@[simp] theorem accept_ie (s : State) (w : Word) (rs : List Reg) : (s.accept w rs).ie = s.ie := rfl
@[simp] theorem accept_done (s : State) (w : Word) (rs : List Reg) : (s.accept w rs).done = false := rfl
@[simp] theorem accept_error (s : State) (w : Word) (rs : List Reg) : (s.accept w rs).error = none := rfl
@[simp] theorem accept_cmdovr (s : State) (w : Word) (rs : List Reg) : (s.accept w rs).cmdovr = s.cmdovr := rfl
@[simp] theorem accept_errcmd (s : State) (w : Word) (rs : List Reg) : (s.accept w rs).errcmd = s.errcmd := rfl
@[simp] theorem accept_pgcap (s : State) (w : Word) (rs : List Reg) : (s.accept w rs).pgcap = s.pgcap := rfl
@[simp] theorem accept_port (s : State) (w : Word) (rs : List Reg) : (s.accept w rs).port = s.port := rfl
@[simp] theorem accept_inputs (s : State) (w : Word) (rs : List Reg) : (s.accept w rs).inputs = s.inputs := rfl
@[simp] theorem accept_lastRead (s : State) (w : Word) (rs : List Reg) : (s.accept w rs).lastRead = s.lastRead := rfl

/-! ### acknowledge -/

@[simp] theorem acknowledge_params (s : State) (v : Word) : (s.acknowledge v).params = s.params := rfl
@[simp] theorem acknowledge_limbs (s : State) (v : Word) : (s.acknowledge v).limbs = s.limbs := rfl
@[simp] theorem acknowledge_sign (s : State) (v : Word) : (s.acknowledge v).sign = s.sign := rfl
@[simp] theorem acknowledge_engine (s : State) (v : Word) : (s.acknowledge v).engine = s.engine := rfl
@[simp] theorem acknowledge_candidates (s : State) (v : Word) : (s.acknowledge v).candidates = s.candidates := rfl
@[simp] theorem acknowledge_ie (s : State) (v : Word) : (s.acknowledge v).ie = s.ie := rfl
@[simp] theorem acknowledge_done (s : State) (v : Word) : (s.acknowledge v).done = (s.done && !v.getLsbD 1) := rfl
@[simp] theorem acknowledge_error (s : State) (v : Word) : (s.acknowledge v).error = if v.getLsbD 2 then none else s.error := rfl
@[simp] theorem acknowledge_cmdovr (s : State) (v : Word) : (s.acknowledge v).cmdovr = (s.cmdovr && !v.getLsbD 3) := rfl
@[simp] theorem acknowledge_errcmd (s : State) (v : Word) : (s.acknowledge v).errcmd = s.errcmd := rfl
@[simp] theorem acknowledge_pgcap (s : State) (v : Word) : (s.acknowledge v).pgcap = s.pgcap := rfl
@[simp] theorem acknowledge_port (s : State) (v : Word) : (s.acknowledge v).port = s.port := rfl
@[simp] theorem acknowledge_inputs (s : State) (v : Word) : (s.acknowledge v).inputs = s.inputs := rfl
@[simp] theorem acknowledge_lastRead (s : State) (v : Word) : (s.acknowledge v).lastRead = s.lastRead := rfl

/-! ### resetNte -/

@[simp] theorem resetNte_params (s : State) : (s.resetNte).params = s.params := rfl
@[simp] theorem resetNte_limbs (s : State) : (s.resetNte).limbs = Vector.replicate 16 (List.replicate s.params.nlimb 0) := rfl
@[simp] theorem resetNte_sign (s : State) : (s.resetNte).sign = 0 := rfl
@[simp] theorem resetNte_engine (s : State) : (s.resetNte).engine = .idle := rfl
@[simp] theorem resetNte_candidates (s : State) : (s.resetNte).candidates = 0 := rfl
@[simp] theorem resetNte_ie (s : State) : (s.resetNte).ie = false := rfl
@[simp] theorem resetNte_done (s : State) : (s.resetNte).done = false := rfl
@[simp] theorem resetNte_error (s : State) : (s.resetNte).error = none := rfl
@[simp] theorem resetNte_cmdovr (s : State) : (s.resetNte).cmdovr = false := rfl
@[simp] theorem resetNte_errcmd (s : State) : (s.resetNte).errcmd = 0 := rfl
@[simp] theorem resetNte_pgcap (s : State) : (s.resetNte).pgcap = 0 := rfl
@[simp] theorem resetNte_port (s : State) : (s.resetNte).port = s.port := rfl
@[simp] theorem resetNte_inputs (s : State) : (s.resetNte).inputs = s.inputs := rfl
@[simp] theorem resetNte_lastRead (s : State) : (s.resetNte).lastRead = s.lastRead := rfl

/-! ### complete: the fields it sets itself, then those it hands to `writeAll` -/

@[simp] theorem complete_params (s : State) (ws : List (Reg × Int)) : (s.complete ws).params = (s.writeAll ws).params := rfl
@[simp] theorem complete_limbs (s : State) (ws : List (Reg × Int)) : (s.complete ws).limbs = (s.writeAll ws).limbs := rfl
@[simp] theorem complete_sign (s : State) (ws : List (Reg × Int)) : (s.complete ws).sign = (s.writeAll ws).sign := rfl
@[simp] theorem complete_engine (s : State) (ws : List (Reg × Int)) : (s.complete ws).engine = .idle := rfl
@[simp] theorem complete_candidates (s : State) (ws : List (Reg × Int)) : (s.complete ws).candidates = (s.writeAll ws).candidates := rfl
@[simp] theorem complete_ie (s : State) (ws : List (Reg × Int)) : (s.complete ws).ie = (s.writeAll ws).ie := rfl
@[simp] theorem complete_done (s : State) (ws : List (Reg × Int)) : (s.complete ws).done = true := rfl
@[simp] theorem complete_error (s : State) (ws : List (Reg × Int)) : (s.complete ws).error = none := rfl
@[simp] theorem complete_cmdovr (s : State) (ws : List (Reg × Int)) : (s.complete ws).cmdovr = (s.writeAll ws).cmdovr := rfl
@[simp] theorem complete_errcmd (s : State) (ws : List (Reg × Int)) : (s.complete ws).errcmd = (s.writeAll ws).errcmd := rfl
@[simp] theorem complete_pgcap (s : State) (ws : List (Reg × Int)) : (s.complete ws).pgcap = (s.writeAll ws).pgcap := rfl
@[simp] theorem complete_port (s : State) (ws : List (Reg × Int)) : (s.complete ws).port = (s.writeAll ws).port := rfl
@[simp] theorem complete_inputs (s : State) (ws : List (Reg × Int)) : (s.complete ws).inputs = (s.writeAll ws).inputs := rfl
@[simp] theorem complete_lastRead (s : State) (ws : List (Reg × Int)) : (s.complete ws).lastRead = (s.writeAll ws).lastRead := rfl

/-! ### writeAll touches the registers only -/

@[simp] theorem writeAll_params (s : State) (ws : List (Reg × Int)) : (s.writeAll ws).params = s.params := by
  induction ws generalizing s with
  | nil => rfl
  | cons w ws ih => rw [State.writeAll, ih, writeX_params]
@[simp] theorem writeAll_engine (s : State) (ws : List (Reg × Int)) : (s.writeAll ws).engine = s.engine := by
  induction ws generalizing s with
  | nil => rfl
  | cons w ws ih => rw [State.writeAll, ih, writeX_engine]
@[simp] theorem writeAll_candidates (s : State) (ws : List (Reg × Int)) : (s.writeAll ws).candidates = s.candidates := by
  induction ws generalizing s with
  | nil => rfl
  | cons w ws ih => rw [State.writeAll, ih, writeX_candidates]
@[simp] theorem writeAll_ie (s : State) (ws : List (Reg × Int)) : (s.writeAll ws).ie = s.ie := by
  induction ws generalizing s with
  | nil => rfl
  | cons w ws ih => rw [State.writeAll, ih, writeX_ie]
@[simp] theorem writeAll_done (s : State) (ws : List (Reg × Int)) : (s.writeAll ws).done = s.done := by
  induction ws generalizing s with
  | nil => rfl
  | cons w ws ih => rw [State.writeAll, ih, writeX_done]
@[simp] theorem writeAll_error (s : State) (ws : List (Reg × Int)) : (s.writeAll ws).error = s.error := by
  induction ws generalizing s with
  | nil => rfl
  | cons w ws ih => rw [State.writeAll, ih, writeX_error]
@[simp] theorem writeAll_cmdovr (s : State) (ws : List (Reg × Int)) : (s.writeAll ws).cmdovr = s.cmdovr := by
  induction ws generalizing s with
  | nil => rfl
  | cons w ws ih => rw [State.writeAll, ih, writeX_cmdovr]
@[simp] theorem writeAll_errcmd (s : State) (ws : List (Reg × Int)) : (s.writeAll ws).errcmd = s.errcmd := by
  induction ws generalizing s with
  | nil => rfl
  | cons w ws ih => rw [State.writeAll, ih, writeX_errcmd]
@[simp] theorem writeAll_pgcap (s : State) (ws : List (Reg × Int)) : (s.writeAll ws).pgcap = s.pgcap := by
  induction ws generalizing s with
  | nil => rfl
  | cons w ws ih => rw [State.writeAll, ih, writeX_pgcap]
@[simp] theorem writeAll_port (s : State) (ws : List (Reg × Int)) : (s.writeAll ws).port = s.port := by
  induction ws generalizing s with
  | nil => rfl
  | cons w ws ih => rw [State.writeAll, ih, writeX_port]
@[simp] theorem writeAll_inputs (s : State) (ws : List (Reg × Int)) : (s.writeAll ws).inputs = s.inputs := by
  induction ws generalizing s with
  | nil => rfl
  | cons w ws ih => rw [State.writeAll, ih, writeX_inputs]
@[simp] theorem writeAll_lastRead (s : State) (ws : List (Reg × Int)) : (s.writeAll ws).lastRead = s.lastRead := by
  induction ws generalizing s with
  | nil => rfl
  | cons w ws ih => rw [State.writeAll, ih, writeX_lastRead]

end Sys2Proof.Machine
end

