-- ==== Sys2Proof/Laws/Registers.lean ====
section
/-!
SUPPORT. What the operations on operand registers do: limbs and values, SIGN bits, one write, and the staged writes
of a commit.
-/

namespace Sys2Proof.Machine

/-! ### Limbs and values -/

@[simp] theorem toLimbs_length (n v : Nat) : (toLimbs n v).length = n := by
  induction n generalizing v with
  | zero => rfl
  | succ n ih => simp [toLimbs, ih]

theorem limbsValue_lt (ls : List Limb) : limbsValue ls < 2 ^ (32 * ls.length) := by
  induction ls with
  | nil => simp [limbsValue]
  | cons l ls ih =>
    have hl := l.isLt
    have hp : 2 ^ (32 * (ls.length + 1)) = 2 ^ 32 * 2 ^ (32 * ls.length) := by rw [← pow_add]; ring_nf
    simp only [limbsValue, List.length_cons, hp]
    calc l.toNat + 2 ^ 32 * limbsValue ls < 2 ^ 32 + 2 ^ 32 * limbsValue ls := by omega
      _ = 2 ^ 32 * (limbsValue ls + 1) := by ring
      _ ≤ 2 ^ 32 * 2 ^ (32 * ls.length) := Nat.mul_le_mul_left _ ih

/-- Splitting a value into `n` limbs loses nothing below `2^(32·n)`. -/
theorem limbsValue_toLimbs (n v : Nat) (h : v < 2 ^ (32 * n)) : limbsValue (toLimbs n v) = v := by
  induction n generalizing v with
  | zero => simp at h; simp [toLimbs, limbsValue, h]
  | succ n ih =>
    have hp : 2 ^ (32 * (n + 1)) = 2 ^ (32 * n) * 2 ^ 32 := by rw [← pow_add]; ring_nf
    have hq : v / 2 ^ 32 < 2 ^ (32 * n) := Nat.div_lt_of_lt_mul (by rw [hp] at h; linarith)
    simp only [toLimbs, limbsValue, ih _ hq, BitVec.toNat_ofNat]
    exact Nat.mod_add_div v (2 ^ 32)

/-! ### SIGN bits -/

theorem setSignBit_self (g : BitVec 16) (i : Reg) (b : Bool) : (setSignBit g i b).getLsbD i.val = b := by
  cases b <;> simp [setSignBit]

theorem setSignBit_other (g : BitVec 16) {i j : Reg} (b : Bool) (h : j ≠ i) :
    (setSignBit g i b).getLsbD j.val = g.getLsbD j.val := by
  have hne : ¬ (j.val = i.val) := fun e => h (Fin.ext e)
  cases b <;> simp [setSignBit, hne]

/-! ### Values of registers -/

theorem magnitude_lt (s : State) (r : Reg) (h : s.limbs[r].length = s.params.nlimb) :
    s.magnitude r < 2 ^ s.params.width := by
  have hb := limbsValue_lt s.limbs[r]
  rwa [h] at hb

theorem x_natAbs (s : State) (r : Reg) : (s.x r).natAbs = s.magnitude r := by
  unfold State.x; split <;> simp

/-- A register's value stays below `2^W` in magnitude (10_state.md R20). -/
theorem x_fits (s : State) (r : Reg) (h : s.limbs[r].length = s.params.nlimb) : s.Fits (s.x r) := by
  simpa [x_natAbs] using magnitude_lt s r h

theorem x_of_sameReg {s t : State} {r : Reg} (h : SameReg s t r) : t.x r = s.x r := by
  unfold State.x State.magnitude; rw [h.limbs, h.sign]

/-! ### One write -/

@[simp] theorem signBit_writeX_self (s : State) (r : Reg) (v : Int) :
    (s.writeX r v).signBit r = decide (v < 0) := setSignBit_self s.sign r (decide (v < 0))

theorem magnitude_writeX_self (s : State) (r : Reg) (v : Int) (h : s.Fits v) :
    (s.writeX r v).magnitude r = v.natAbs := by
  simpa [State.magnitude] using limbsValue_toLimbs _ _ h

/-- A written register holds the value written (10_state.md R22). -/
theorem x_writeX_self (s : State) (r : Reg) (v : Int) (h : s.Fits v) : (s.writeX r v).x r = v := by
  simp only [State.x, signBit_writeX_self, magnitude_writeX_self s r v h, decide_eq_true_eq]
  split <;> omega

/-- A write leaves every other register alone. -/
theorem writeX_other (s : State) {r r' : Reg} (v : Int) (h : r' ≠ r) : SameReg s (s.writeX r v) r' where
  limbs := by
    have hne : r.val ≠ r'.val := fun e => h (Fin.ext e.symm)
    simp [hne]
  sign := setSignBit_other s.sign (decide (v < 0)) h

theorem SameReg.trans {s t u : State} {r : Reg} (h : SameReg s t r) (k : SameReg t u r) : SameReg s u r :=
  ⟨k.limbs.trans h.limbs, k.sign.trans h.sign⟩

theorem SameReg.refl (s : State) (r : Reg) : SameReg s s r := ⟨rfl, rfl⟩

theorem writeX_limbs_length (s : State) (r r' : Reg) (v : Int) (h : s.limbs[r'].length = s.params.nlimb) :
    (s.writeX r v).limbs[r'].length = s.params.nlimb := by
  by_cases e : r' = r
  · subst e; simp
  · rw [(writeX_other s v e).limbs, h]

/-! ### The staged writes of a commit -/

/-- The staged writes leave every register alone that is no destination. -/
theorem writeAll_other (s : State) (ws : List (Reg × Int)) {r : Reg} (h : r ∉ ws.map Prod.fst) :
    SameReg s (s.writeAll ws) r := by
  induction ws generalizing s with
  | nil => exact .refl s r
  | cons w ws ih =>
    simp only [List.map_cons, List.mem_cons, not_or] at h
    exact (writeX_other s w.2 h.1).trans (ih _ h.2)

/-- Where the destinations differ, every destination holds its staged value, with a normalised sign. -/
theorem writeAll_written (s : State) (ws : List (Reg × Int)) (hn : (ws.map Prod.fst).Nodup)
    (hf : ∀ w ∈ ws, s.Fits w.2) :
    ∀ w ∈ ws, (s.writeAll ws).x w.1 = w.2 ∧ (s.writeAll ws).signBit w.1 = decide (w.2 < 0) := by
  induction ws generalizing s with
  | nil => simp
  | cons w ws ih =>
    simp only [List.map_cons, List.nodup_cons] at hn
    intro u hu
    rcases List.mem_cons.1 hu with rfl | hu
    · have same := writeAll_other (s.writeX u.1 u.2) ws hn.1
      refine ⟨?_, ?_⟩
      · exact (x_of_sameReg same).trans (x_writeX_self s u.1 u.2 (hf u (by simp)))
      · exact same.sign.trans (signBit_writeX_self s u.1 u.2)
    · exact ih (s.writeX w.1 w.2) hn.2 (fun x hx => hf x (by simp [hx])) u hu

theorem writeAll_limbs_length (s : State) (ws : List (Reg × Int)) (r : Reg)
    (h : s.limbs[r].length = s.params.nlimb) : (s.writeAll ws).limbs[r].length = s.params.nlimb := by
  induction ws generalizing s with
  | nil => exact h
  | cons w ws ih => exact ih (s.writeX w.1 w.2) (writeX_limbs_length s w.1 r w.2 h)

end Sys2Proof.Machine
end

