-- ==== Sys2Proof/Laws/Ends.lean ====
section
/-!
SUPPORT. What the two ends of a command do, each said once: a successful commit and an end with an error (10_state.md
R27); and what the shared operations around them leave.
-/

namespace Sys2Proof.Machine

/-- A commit of writes to different registers, all of which fit, is `Committed`. -/
theorem complete_committed (s : State) (ws : List (Reg × Int)) (hn : (ws.map Prod.fst).Nodup)
    (hf : ∀ w ∈ ws, s.Fits w.2) : Committed s (s.complete ws) ws s.port where
  idle := rfl
  done := rfl
  noError := ⟨rfl, rfl⟩
  written := writeAll_written s ws hn hf
  kept r h := ⟨(writeAll_other s ws h).limbs, (writeAll_other s ws h).sign⟩
  errcmd := by simp
  controls := ⟨by simp, by simp, by simp, by simp, by simp, by simp⟩
  port := by simp

/-- An end with an error is `EndedWith`. -/
theorem raise_endedWith (s : State) (c : ErrorCode) (w : Word) : EndedWith s (s.raise c w) c w s.port where
  idle := rfl
  done := rfl
  error := ⟨rfl, rfl⟩
  errcmd := rfl
  kept _ := ⟨rfl, rfl⟩
  controls := ⟨rfl, rfl, rfl, rfl, rfl, rfl⟩
  port := rfl

@[simp] theorem finish_ok (s : State) (i : Instr) (ws : List (Reg × Int)) :
    s.finish i (.ok ws) = s.complete ws := rfl

@[simp] theorem finish_error (s : State) (i : Instr) (c : ErrorCode) :
    s.finish i (.error c) = s.raise c (s.commandWord i) := rfl

/-- Whatever the pseudocode ended with, the commit step is a commit of its writes or the end with its error. -/
theorem finish_cases (s : State) (i : Instr) (result : Except ErrorCode (List (Reg × Int))) :
    (∃ ws, result = .ok ws ∧ s.finish i result = s.complete ws) ∨
      (∃ c, result = .error c ∧ s.finish i result = s.raise c (s.commandWord i)) := by
  cases result with
  | ok ws => exact .inl ⟨ws, rfl, rfl⟩
  | error c => exact .inr ⟨c, rfl, rfl⟩

/-- Every operand a command sees fits a register, latched or live. -/
theorem operand_fits {s : State} (h : s.Inv) (r : Reg) : s.Fits (s.operand r) := by
  unfold State.operand
  have live := x_fits s r (h.limbs r)
  split
  · rename_i l hl
    cases hk : l.sources.lookup r with
    | none => simpa [hk] using live
    | some v =>
      have hm : (r, v) ∈ l.sources := by
        obtain ⟨l₁, l₂, he, -⟩ := List.lookup_eq_some_iff.1 hk
        simp [he]
      simpa [hk] using (h.latch l hl).fits _ hm
  · exact live

end Sys2Proof.Machine
end

