-- ==== Sys2Proof/Laws/PerInstr.lean ====
section
/-!
SUPPORT. Laws made per instruction. `RoundTrip`: decoding the encoded word of a command gives the command back.
-/

namespace Sys2Proof.Laws.RoundTrip

/-- Decoding the word of the command gives the command (30_encoding.md R85, R86, R90). -/
def Statement (i : Instr) : Prop := decode (encode i) = .ok i

theorem add (rd rs1 rs2 : Reg) : Statement (.add rd rs1 rs2) := by
  have hr : rowOf (encode (.add rd rs1 rs2)) = some ⟨.add, 0x1, 0xFFF000FF⟩ := by
    rw [rowOf, encode, opcodeField_formatR]; rfl
  have hm : encode (.add rd rs1 rs2) &&& 0xFFF000FF = 0x1 := by
    refine (formatR_mask 0x1 rd rs1 rs2 0 0 0 0x0 0x0 0x0 0xF 0xF 0xF).trans ?_
    simp
  rw [Statement, decode_of_row hr hm]
  simp [operandsOf, encode]

theorem sub (rd rs1 rs2 : Reg) : Statement (.sub rd rs1 rs2) := by
  have hr : rowOf (encode (.sub rd rs1 rs2)) = some ⟨.sub, 0x2, 0xFFF000FF⟩ := by
    rw [rowOf, encode, opcodeField_formatR]; rfl
  have hm : encode (.sub rd rs1 rs2) &&& 0xFFF000FF = 0x2 := by
    refine (formatR_mask 0x2 rd rs1 rs2 0 0 0 0x0 0x0 0x0 0xF 0xF 0xF).trans ?_
    simp
  rw [Statement, decode_of_row hr hm]
  simp [operandsOf, encode]

theorem mul (rd rs1 rs2 : Reg) : Statement (.mul rd rs1 rs2) := by
  have hr : rowOf (encode (.mul rd rs1 rs2)) = some ⟨.mul, 0x3, 0xFFF000FF⟩ := by
    rw [rowOf, encode, opcodeField_formatR]; rfl
  have hm : encode (.mul rd rs1 rs2) &&& 0xFFF000FF = 0x3 := by
    refine (formatR_mask 0x3 rd rs1 rs2 0 0 0 0x0 0x0 0x0 0xF 0xF 0xF).trans ?_
    simp
  rw [Statement, decode_of_row hr hm]
  simp [operandsOf, encode]

theorem divmod (rd rd2 rs1 rs2 : Reg) : Statement (.divmod rd rd2 rs1 rs2) := by
  have hr : rowOf (encode (.divmod rd rd2 rs1 rs2)) = some ⟨.divmod, 0x4, 0xF0F000FF⟩ := by
    rw [rowOf, encode, opcodeField_formatR]; rfl
  have hm : encode (.divmod rd rd2 rs1 rs2) &&& 0xF0F000FF = 0x4 := by
    refine (formatR_mask 0x4 rd rs1 rs2 0 rd2 0 0x0 0x0 0x0 0xF 0x0 0xF).trans ?_
    simp
  rw [Statement, decode_of_row hr hm]
  simp [operandsOf, encode]

theorem cmp (rd rs1 rs2 : Reg) : Statement (.cmp rd rs1 rs2) := by
  have hr : rowOf (encode (.cmp rd rs1 rs2)) = some ⟨.cmp, 0x5, 0xFFF000FF⟩ := by
    rw [rowOf, encode, opcodeField_formatR]; rfl
  have hm : encode (.cmp rd rs1 rs2) &&& 0xFFF000FF = 0x5 := by
    refine (formatR_mask 0x5 rd rs1 rs2 0 0 0 0x0 0x0 0x0 0xF 0xF 0xF).trans ?_
    simp
  rw [Statement, decode_of_row hr hm]
  simp [operandsOf, encode]

theorem mov (rd rs1 : Reg) : Statement (.mov rd rs1) := by
  have hr : rowOf (encode (.mov rd rs1)) = some ⟨.mov, 0x6, 0xFFFF00FF⟩ := by
    rw [rowOf, encode, opcodeField_formatR]; rfl
  have hm : encode (.mov rd rs1) &&& 0xFFFF00FF = 0x6 := by
    refine (formatR_mask 0x6 rd rs1 0 0 0 0 0x0 0x0 0xF 0xF 0xF 0xF).trans ?_
    simp
  rw [Statement, decode_of_row hr hm]
  simp [operandsOf, encode]

theorem ldi (rd : Reg) (imm16 : BitVec 16) : Statement (.ldi rd imm16) := by
  have hr : rowOf (encode (.ldi rd imm16)) = some ⟨.ldi, 0x7, 0x0000F0FF⟩ := by
    rw [rowOf, encode, opcodeField_formatI]; rfl
  have hm : encode (.ldi rd imm16) &&& 0x0000F0FF = 0x7 := by
    refine (formatI_mask 0x7 rd 0 imm16 0x0 0xF 0x0).trans ?_
    simp
  rw [Statement, decode_of_row hr hm]
  simp [operandsOf, encode]

theorem modmul (rd rs1 rs2 rs3 : Reg) : Statement (.modmul rd rs1 rs2 rs3) := by
  have hr : rowOf (encode (.modmul rd rs1 rs2 rs3)) = some ⟨.modmul, 0x10, 0xFF0000FF⟩ := by
    rw [rowOf, encode, opcodeField_formatR]; rfl
  have hm : encode (.modmul rd rs1 rs2 rs3) &&& 0xFF0000FF = 0x10 := by
    refine (formatR_mask 0x10 rd rs1 rs2 rs3 0 0 0x0 0x0 0x0 0x0 0xF 0xF).trans ?_
    simp
  rw [Statement, decode_of_row hr hm]
  simp [operandsOf, encode]

theorem modexp (rd rs1 rs2 rs3 : Reg) : Statement (.modexp rd rs1 rs2 rs3) := by
  have hr : rowOf (encode (.modexp rd rs1 rs2 rs3)) = some ⟨.modexp, 0x11, 0xFF0000FF⟩ := by
    rw [rowOf, encode, opcodeField_formatR]; rfl
  have hm : encode (.modexp rd rs1 rs2 rs3) &&& 0xFF0000FF = 0x11 := by
    refine (formatR_mask 0x11 rd rs1 rs2 rs3 0 0 0x0 0x0 0x0 0x0 0xF 0xF).trans ?_
    simp
  rw [Statement, decode_of_row hr hm]
  simp [operandsOf, encode]

theorem mrtest (rd rs1 : Reg) (imm16 : BitVec 16) : Statement (.mrtest rd rs1 imm16) := by
  have hr : rowOf (encode (.mrtest rd rs1 imm16)) = some ⟨.mrtest, 0x20, 0x000000FF⟩ := by
    rw [rowOf, encode, opcodeField_formatI]; rfl
  have hm : encode (.mrtest rd rs1 imm16) &&& 0x000000FF = 0x20 := by
    refine (formatI_mask 0x20 rd rs1 imm16 0x0 0x0 0x0).trans ?_
    simp
  rw [Statement, decode_of_row hr hm]
  simp [operandsOf, encode]

theorem primegen (rd : Reg) : Statement (.primegen rd) := by
  have hr : rowOf (encode (.primegen rd)) = some ⟨.primegen, 0x21, 0xFFFFF0FF⟩ := by
    rw [rowOf, encode, opcodeField_formatR]; rfl
  have hm : encode (.primegen rd) &&& 0xFFFFF0FF = 0x21 := by
    refine (formatR_mask 0x21 rd 0 0 0 0 0 0x0 0xF 0xF 0xF 0xF 0xF).trans ?_
    simp
  rw [Statement, decode_of_row hr hm]
  simp [operandsOf, encode]

theorem egcd (rd rd2 rd3 rs1 rs2 : Reg) : Statement (.egcd rd rd2 rd3 rs1 rs2) := by
  have hr : rowOf (encode (.egcd rd rd2 rd3 rs1 rs2)) = some ⟨.egcd, 0x30, 0x00F000FF⟩ := by
    rw [rowOf, encode, opcodeField_formatR]; rfl
  have hm : encode (.egcd rd rd2 rd3 rs1 rs2) &&& 0x00F000FF = 0x30 := by
    refine (formatR_mask 0x30 rd rs1 rs2 0 rd2 rd3 0x0 0x0 0x0 0xF 0x0 0x0).trans ?_
    simp
  rw [Statement, decode_of_row hr hm]
  simp [operandsOf, encode]

theorem modinv (rd rs1 rs2 : Reg) : Statement (.modinv rd rs1 rs2) := by
  have hr : rowOf (encode (.modinv rd rs1 rs2)) = some ⟨.modinv, 0x31, 0xFFF000FF⟩ := by
    rw [rowOf, encode, opcodeField_formatR]; rfl
  have hm : encode (.modinv rd rs1 rs2) &&& 0xFFF000FF = 0x31 := by
    refine (formatR_mask 0x31 rd rs1 rs2 0 0 0 0x0 0x0 0x0 0xF 0xF 0xF).trans ?_
    simp
  rw [Statement, decode_of_row hr hm]
  simp [operandsOf, encode]

end Sys2Proof.Laws.RoundTrip
end

