-- ==== Sys2Proof/Laws/Steps.lean ====
section
/-!
SUPPORT. What one step can do, said once for each kind of event and for a CMD write; the draws of the random port; and
the limb region of the window.
-/

namespace Sys2Proof.Machine

/-! ### Events (20_memory.md R62) -/

@[simp] theorem takeInput_nil {s : State} (h : s.inputs = []) : s.takeInput = (.engineTurn, s) := by
  simp [State.takeInput, h]

@[simp] theorem takeInput_cons (s : State) (e : Input) (es : List Input) :
    ({ s with inputs := e :: es } : State).takeInput = (e, { s with inputs := es }) := rfl

/-- A step on an event is that event's effect on the state that still holds the later events. -/
theorem stepOn_eq (e : Input) (s : State) : stepOn e s = runInput e s := rfl

theorem step_no_input {s : State} (h : s.inputs = []) : step s = engineTurn s := by
  simp [step, takeInput_nil h, runInput]

theorem stepOn_reset (s : State) : stepOn .resetPin s = .next s.resetNte := rfl

theorem stepOn_read (s : State) (width : Width) (offset : Offset) :
    stepOn (.read width offset) s = hostRead width offset s := rfl

theorem stepOn_write (s : State) (width : Width) (offset : Offset) (v : Word) :
    stepOn (.write width offset v) s = hostWrite width offset v s := rfl

theorem hostRead_legal (s : State) {offset : Offset} (h : offset.toNat % 4 = 0) :
    hostRead .w32 offset s = .next { s with lastRead := some (s.memRead offset) } := by
  simp [hostRead, legalAccess, h]

theorem hostWrite_legal (s : State) {offset : Offset} (h : offset.toNat % 4 = 0) (v : Word) :
    hostWrite .w32 offset v s = .next (s.memWrite offset v) := by
  simp [hostWrite, legalAccess, h]

/-- A CMD write is an issue of its word. -/
theorem memWrite_cmd (s : State) (w : Word) : s.memWrite 0x014 w = s.issue w := rfl

/-! ### The engine's turn -/

theorem engineTurn_idle {s : State} (h : s.engine = .idle) : engineTurn s = .next s := by
  simp [engineTurn, State.fetch, h]

theorem engineTurn_busy {s : State} {l : Latch} {i : Instr} (h : s.engine = .busy l) (hd : decode l.word = .ok i) :
    engineTurn s = exec i s := by
  simp [engineTurn, State.fetch, h, hd]

/-! ### A CMD write (10_state.md R26) -/

/-- The two spellings of 30_encoding.md R88 agree: coinciding destinations, and not well formed. -/
theorem coincidingDests_eq (i : Instr) : coincidingDests i = !i.wf := by
  cases i with
  | divmod rd rd2 _ _ => by_cases h : rd = rd2 <;> simp [coincidingDests, destsOf, Instr.wf, h]
  | egcd rd rd2 rd3 _ _ =>
    by_cases h : rd = rd2 <;> by_cases k : rd = rd3 <;> by_cases m : rd2 = rd3 <;>
      simp_all [coincidingDests, destsOf, Instr.wf]
  | _ => simp [coincidingDests, destsOf, Instr.wf]

theorem issue_busy {s : State} {l : Latch} (h : s.engine = .busy l) (w : Word) :
    s.issue w = { s with cmdovr := true } := by
  simp [State.issue, h]

theorem issue_illegal {s : State} {w : Word} {e : Illegal} (h : s.engine = .idle) (hd : decode w = .error e) :
    s.issue w = s.raise .illegal w := by
  simp [State.issue, h, hd]

theorem issue_coinciding {s : State} {w : Word} {i : Instr} (h : s.engine = .idle) (hd : decode w = .ok i)
    (hw : i.wf = false) : s.issue w = s.raise .operand w := by
  simp [State.issue, h, hd, coincidingDests_eq, hw]

theorem issue_accepted {s : State} {w : Word} {i : Instr} (h : s.engine = .idle) (hd : decode w = .ok i)
    (hw : i.wf = true) : s.issue w = s.accept w (sourcesOf i) := by
  simp [State.issue, h, hd, coincidingDests_eq, hw]

theorem lookup_map_self {α β : Type} [BEq α] [LawfulBEq α] (f : α → β) {l : List α} {a : α} (h : a ∈ l) :
    (l.map fun x => (x, f x)).lookup a = some (f a) := by
  induction l with
  | nil => simp at h
  | cons b l ih =>
    by_cases e : a = b
    · subst e; simp
    · have hb : (a == b) = false := by simpa using e
      simp only [List.map_cons, List.lookup, hb]
      exact ih (by simpa [e] using h)

/-- After an acceptance the command sees the values its sources held at that moment. -/
theorem operand_accept (s : State) (w : Word) {rs : List Reg} {r : Reg} (h : r ∈ rs) :
    (s.accept w rs).operand r = s.x r := by
  simp [State.operand, State.latchOf, lookup_map_self s.x h]

/-! ### The random port (00_scope.md R12) -/

@[simp] theorem answer_after (p : Port) (m n : Nat) : (p.after m).answer n = p.answer (m + n) := by
  simp [Port.after, Port.answer, Nat.add_assoc]

@[simp] theorem after_after (p : Port) (m n : Nat) : (p.after m).after n = p.after (m + n) := by
  simp [Port.after, Nat.add_assoc]

@[simp] theorem after_zero (p : Port) : p.after 0 = p := rfl

theorem intoRange_mem {lo hi : Nat} (h : lo ≤ hi) (a : Nat) : lo ≤ intoRange lo hi a ∧ intoRange lo hi a ≤ hi := by
  unfold intoRange
  split
  · assumption
  · have := Nat.mod_lt a (show hi - lo + 1 > 0 by omega)
    omega

theorem intoRange_self {lo hi a : Nat} (h : lo ≤ a) (k : a ≤ hi) : intoRange lo hi a = a := by
  simp [intoRange, h, k]

/-! ### The limb region of the window (20_memory.md R52, R57) -/

theorem windowReg_limbRegion (p : Config.Params) {n : Nat} (h : limbBase ≤ n) : windowReg p n = limbAt p n := by
  have hb : ¬ n < limbBase := by omega
  unfold windowReg
  split
  case h_10 => rw [if_neg hb]
  all_goals simp [limbBase] at h

/-- Limb `L[i][j]` stands at its offset. -/
theorem windowReg_limbOffset (p : Config.Params) (i : Reg) {j : Nat} (h : j < p.nlimb) :
    windowReg p (limbOffset p i j) = .limb i j := by
  have hpos : 0 < p.nlimb := by omega
  have hn : (limbOffset p i j - limbBase) / 4 = p.nlimb * i.val + j := by
    unfold limbOffset
    have : limbBase + 4 * p.nlimb * i.val + 4 * j - limbBase = 4 * (p.nlimb * i.val + j) := by
      rw [Nat.add_assoc, Nat.add_sub_cancel_left]; ring
    rw [this]; omega
  rw [windowReg_limbRegion p (by unfold limbOffset; omega), limbAt]
  have hdiv : (p.nlimb * i.val + j) / p.nlimb = i.val := by
    rw [Nat.mul_add_div hpos, Nat.div_eq_of_lt h, Nat.add_zero]
  have hmod : (p.nlimb * i.val + j) % p.nlimb = j := by
    rw [Nat.mul_add_mod, Nat.mod_eq_of_lt h]
  simp only [hn, hdiv, hmod]
  simp [hpos.ne']

end Sys2Proof.Machine
end

