-- ==== Sys2Proof/Laws/Invariant.lean ====
section
/-!
SUPPORT. The shared operations keep the invariant `State.Inv`.
-/

namespace Sys2Proof.Machine

/-- An idle state with valid parameters and whole registers meets the invariant. -/
theorem inv_of_idle {s : State} (hp : s.params.Valid) (hl : ∀ r : Reg, s.limbs[r].length = s.params.nlimb)
    (hi : s.engine = .idle) : s.Inv where
  params := hp
  limbs := hl
  quiet h := by simp [State.busy, hi] at h
  latch l h := by simp [hi] at h
  cap l h := by simp [hi] at h

theorem resetWith_inv {p : Config.Params} (hp : p.Valid) : (State.resetWith p).Inv :=
  inv_of_idle hp (fun r => by simp [State.resetWith]) rfl

theorem resetNte_inv {s : State} (h : s.Inv) : s.resetNte.Inv :=
  inv_of_idle h.params (fun r => by simp) rfl

theorem raise_inv {s : State} (h : s.Inv) (c : ErrorCode) (w : Word) : (s.raise c w).Inv :=
  inv_of_idle h.params h.limbs rfl

theorem complete_inv {s : State} (h : s.Inv) (ws : List (Reg × Int)) : (s.complete ws).Inv :=
  inv_of_idle (by simpa using h.params) (fun r => by simpa using writeAll_limbs_length s ws r (h.limbs r)) rfl

theorem latchOf_good {s : State} (h : s.Inv) {w : Word} {i : Instr} (hd : decode w = .ok i) (hw : i.wf = true) :
    (s.latchOf w (sourcesOf i)).Good s.params.width where
  command := ⟨i, hd, hw, by simp [State.latchOf, Function.comp_def]⟩
  fits source hs := by
    obtain ⟨r, -, rfl⟩ := List.mem_map.1 hs
    exact x_fits s r (h.limbs r)

theorem accept_inv {s : State} (h : s.Inv) {w : Word} {i : Instr} (hd : decode w = .ok i) (hw : i.wf = true) :
    (s.accept w (sourcesOf i)).Inv where
  params := h.params
  limbs := h.limbs
  quiet _ := ⟨rfl, rfl⟩
  latch l hl := by
    simp only [accept_engine, Engine.busy.injEq] at hl
    exact hl ▸ latchOf_good h hd hw
  cap l _ hc := by
    have : l.cap.toNat ≠ 0 := fun e => hc (BitVec.eq_of_toNat_eq e)
    simp only [accept_candidates]
    omega

end Sys2Proof.Machine
end

