-- ==== Sys2Proof/Laws/Exec.lean ====
section
/-!
SUPPORT. What an engine step can do, said once for all commands: a commit to the command's destinations, an end with
an error the command may report, or, for PRIMEGEN, one more candidate rejected.
-/

namespace Sys2Proof.Machine

/-- `t` is an end of command `i` that started from `s` and whose draws and candidate count left `s'`. -/
inductive Ended (i : Instr) (s s' t : State) : Prop where
  /-- A commit of one write per destination. -/
  | committed (ws : List (Reg × Int)) (dests : ws.map Prod.fst = destsOf i) (wf : i.wf = true)
      (eq : t = s'.complete ws)
  /-- An end with an error the command may report. -/
  | failed (code : ErrorCode) (may : mayReport code i = true) (eq : t = s'.raise code (s.commandWord i))
  /-- PRIMEGEN goes on. -/
  | goesOn (rd : Reg) (isPrimegen : i = .primegen rd)
      (below : s.capInForce = 0 ∨ s.candidatesSoFar + 1 ≠ s.capInForce.toNat)
      (eq : t = { s' with engine := .busy (s.latchInForce i), done := false, error := none })

/-- A pseudocode result of a command: one staged write per destination of a well-formed command, or an error the
command may report. -/
def ResultOf (i : Instr) (result : Except ErrorCode (List (Reg × Int))) : Prop :=
  match result with
  | .ok ws => ws.map Prod.fst = destsOf i ∧ i.wf = true
  | .error code => mayReport code i = true

theorem ended_finish {i : Instr} {result : Except ErrorCode (List (Reg × Int))} (h : ResultOf i result)
    {s s' : State} (hw : s'.commandWord i = s.commandWord i) : Ended i s s' (s'.finish i result) := by
  cases result with
  | ok ws => exact .committed ws h.1 h.2 rfl
  | error code => exact .failed code h (by rw [finish_error, hw])

theorem stageFitting_resultOf (s : State) (rd : Reg) (v : Int) (i : Instr) (hd : destsOf i = [rd])
    (hw : i.wf = true) (hm : mayReport .overflow i = true) : ResultOf i (stageFitting s rd v) := by
  unfold stageFitting
  split
  · exact ⟨hd.symm, hw⟩
  · exact hm

theorem divmodResult_resultOf (rd rd2 rs1 rs2 : Reg) (a b : Int) :
    ResultOf (.divmod rd rd2 rs1 rs2) (divmodResult rd rd2 a b) := by
  unfold divmodResult
  split_ifs with h <;> simp [ResultOf, mayReport, destsOf, Instr.wf, h]

theorem modmulResult_resultOf (rd rs1 rs2 rs3 : Reg) (a b m : Int) :
    ResultOf (.modmul rd rs1 rs2 rs3) (modmulResult rd a b m) := by
  unfold modmulResult
  split_ifs <;> simp [ResultOf, mayReport, destsOf, Instr.wf]

theorem modexpResult_resultOf (rd rs1 rs2 rs3 : Reg) (a e m : Int) :
    ResultOf (.modexp rd rs1 rs2 rs3) (modexpResult rd a e m) := by
  unfold modexpResult
  split_ifs <;> simp [ResultOf, mayReport, destsOf, Instr.wf]

theorem mrtestResult_resultOf (rd rs1 : Reg) (imm16 : BitVec 16) (n : Int) (rounds : Nat) (p : Port) :
    ResultOf (.mrtest rd rs1 imm16) (mrtestResult rd n rounds p).1 := by
  unfold mrtestResult
  split_ifs <;> simp [ResultOf, mayReport, destsOf, Instr.wf]

theorem egcdResult_resultOf (rd rd2 rd3 rs1 rs2 : Reg) (a b : Int) :
    ResultOf (.egcd rd rd2 rd3 rs1 rs2) (egcdResult rd rd2 rd3 a b) := by
  unfold egcdResult
  split_ifs with h
  · simp only [ResultOf, mayReport, Instr.wf]
    rcases h with h | h | h <;> simp [h]
  · simp [ResultOf, mayReport]
  · simp [ResultOf, mayReport]
  · simp only [not_or] at h
    simp [ResultOf, destsOf, Instr.wf, h]

theorem modinvResult_resultOf (rd rs1 rs2 : Reg) (a m : Int) :
    ResultOf (.modinv rd rs1 rs2) (modinvResult rd a m) := by
  unfold modinvResult
  split_ifs
  · simp [ResultOf, mayReport]
  · simp [ResultOf, mayReport]
  · simp [ResultOf, mayReport]
  · simp only
    split_ifs <;> simp [ResultOf, mayReport, destsOf, Instr.wf]

/-- Some end `t` of the engine step of `i` at `s`: only MRTEST and PRIMEGEN draw, and only PRIMEGEN counts. -/
def HasEnd (i : Instr) (s : State) : Prop :=
  ∃ (k : Nat) (p : Port) (t : State), exec i s = .next t ∧
    (drawsRandom i = false → p = s.port) ∧ ((∀ rd, i ≠ .primegen rd) → k = s.candidates) ∧
    ((∃ rd, i = .primegen rd) → k = s.candidatesSoFar + 1) ∧
    Ended i s { s with candidates := k, port := p } t

/-- Every engine step, of any command in any state, answers a next state, and it is one of the three ends. -/
theorem exec_cases (i : Instr) (s : State) : HasEnd i s := by
  have plain : ∀ result, ResultOf i result → exec i s = .next (s.finish i result) →
      (∀ rd, i ≠ .primegen rd) → HasEnd i s := fun result hr he hn =>
    ⟨s.candidates, s.port, _, he, fun _ => rfl, fun _ => rfl, fun ⟨rd, h⟩ => (hn rd h).elim, ended_finish hr rfl⟩
  cases i with
  | add rd rs1 rs2 => exact plain _ (stageFitting_resultOf s rd _ _ rfl rfl rfl) rfl nofun
  | sub rd rs1 rs2 => exact plain _ (stageFitting_resultOf s rd _ _ rfl rfl rfl) rfl nofun
  | mul rd rs1 rs2 => exact plain _ (stageFitting_resultOf s rd _ _ rfl rfl rfl) rfl nofun
  | divmod rd rd2 rs1 rs2 => exact plain _ (divmodResult_resultOf rd rd2 rs1 rs2 _ _) rfl nofun
  | cmp rd rs1 rs2 => exact plain (.ok [(rd, compare3 (s.operand rs1) (s.operand rs2))]) ⟨rfl, rfl⟩ rfl nofun
  | mov rd rs1 => exact plain (.ok [(rd, s.operand rs1)]) ⟨rfl, rfl⟩ rfl nofun
  | ldi rd imm16 => exact plain (.ok [(rd, (immValue imm16 : Int))]) ⟨rfl, rfl⟩ rfl nofun
  | modmul rd rs1 rs2 rs3 => exact plain _ (modmulResult_resultOf rd rs1 rs2 rs3 _ _ _) rfl nofun
  | modexp rd rs1 rs2 rs3 => exact plain _ (modexpResult_resultOf rd rs1 rs2 rs3 _ _ _) rfl nofun
  | egcd rd rd2 rd3 rs1 rs2 => exact plain _ (egcdResult_resultOf rd rd2 rd3 rs1 rs2 _ _) rfl nofun
  | modinv rd rs1 rs2 => exact plain _ (modinvResult_resultOf rd rs1 rs2 _ _) rfl nofun
  | mrtest rd rs1 imm16 =>
    exact ⟨s.candidates, _, _, rfl, nofun, fun _ => rfl, nofun,
      ended_finish (mrtestResult_resultOf rd rs1 imm16 (s.operand rs1) (immValue imm16) s.port) rfl⟩
  | primegen rd =>
    refine ⟨s.candidatesSoFar + 1,
      (mr (candidate s.params.pgLen s.port).1 Config.pgRounds (candidate s.params.pgLen s.port).2).2, _, rfl, nofun,
      fun h => (h rd rfl).elim, fun _ => rfl, ?_⟩
    simp only [State.nextCandidate]
    split_ifs with hp hc
    · exact .committed [(rd, _)] rfl rfl rfl
    · exact .failed .pgCap rfl rfl
    · exact .goesOn rd rfl (by tauto) rfl

end Sys2Proof.Machine
end

