-- ==== Sys2Proof/Tests/Slice0.lean ====
section
/-!
SUPPORT. The model's own tests: ill-formed commands, words written out from the spec's encodings, and the worked
values of spec/95_test_vectors.md, one step each. Every expected value is the spec's.
-/

-- One after another: each theorem's check would otherwise run in a thread of its own, and there are many.
set_option Elab.async false

namespace Sys2Proof.Tests
open Sys2Proof.Machine

/-! ### Small states -/

/-- An idle NTE of the reference parameters whose listed registers are set and whose random port answers as listed. -/
def idleState (regs : List (Reg × Int)) (answers : List Nat) : State :=
  { State.reset.writeAll regs with port := { answers := answers, drawn := 0 } }

/-- The same NTE right after it accepted the command word `w`. -/
def running (w : Word) (regs : List (Reg × Int)) (answers : List Nat) : State :=
  (idleState regs answers).accept w (sourcesOfWord w)

/-- Register `r` and STATUS after one step of `s`. -/
def outcome (s : State) (r : Reg) : Option (Int × Nat) :=
  match step s with
  | .next t => some (t.x r, t.statusWord.toNat)
  | _ => none

theorem reference_valid : Config.reference.Valid := by decide +kernel

theorem idleState_inv (regs : List (Reg × Int)) (answers : List Nat) : (idleState regs answers).Inv :=
  inv_of_idle (by simpa [idleState, State.reset, State.resetWith] using reference_valid)
    (fun r => by simpa [idleState] using writeAll_limbs_length State.reset regs r ((resetWith_inv reference_valid).limbs r))
    (by simp [idleState, State.reset, State.resetWith])

theorem running_inv {w : Word} {i : Instr} (hd : decode w = .ok i) (hw : i.wf = true) (regs : List (Reg × Int))
    (answers : List Nat) : (running w regs answers).Inv := by
  have : sourcesOfWord w = sourcesOf i := by simp [sourcesOfWord, hd]
  simpa [running, this] using accept_inv (idleState_inv regs answers) hd hw

/-! ### Well-formedness: one ill-formed command for each check (30_encoding.md R88) -/

theorem test_wf_divmod_rd_rd2 : Instr.wf (.divmod 3 3 1 2) = false := by decide
theorem test_wf_egcd_rd_rd2 : Instr.wf (.egcd 3 3 4 1 2) = false := by decide
theorem test_wf_egcd_rd_rd3 : Instr.wf (.egcd 3 4 3 1 2) = false := by decide
theorem test_wf_egcd_rd2_rd3 : Instr.wf (.egcd 4 3 3 1 2) = false := by decide
theorem test_wf_sources_may_coincide : Instr.wf (.modexp 0 0 0 0) = true := by decide

/-! ### Decoding: words of 30_encoding.md R90 and the command rules' examples -/

theorem test_decode_add : decode 0b00000000000000100001001100000001 = .ok (.add 3 1 2) := by decide
theorem test_decode_sub : decode 0x00021302 = .ok (.sub 3 1 2) := by decide
theorem test_decode_mul : decode 0x00021303 = .ok (.mul 3 1 2) := by decide
theorem test_decode_divmod : decode 0x04021304 = .ok (.divmod 3 4 1 2) := by decide
theorem test_decode_cmp : decode 0x00021305 = .ok (.cmp 3 1 2) := by decide
theorem test_decode_mov : decode 0x00001206 = .ok (.mov 2 1) := by decide
theorem test_decode_ldi : decode 0x002A0407 = .ok (.ldi 4 42) := by decide
theorem test_decode_modmul : decode 0b00000000001100100001010000010000 = .ok (.modmul 4 1 2 3) := by decide
theorem test_decode_modexp : decode 0x00210311 = .ok (.modexp 3 0 1 2) := by decide
theorem test_decode_mrtest : decode 0xFFFFFF20 = .ok (.mrtest 15 15 65535) := by decide
theorem test_decode_primegen : decode 0b00000000000000000000000100100001 = .ok (.primegen 1) := by decide
theorem test_decode_egcd : decode 0b01010100000000100001001100110000 = .ok (.egcd 3 4 5 1 2) := by decide
theorem test_decode_modinv : decode 0x00021331 = .ok (.modinv 3 1 2) := by decide
theorem test_decode_nop : decode 0x00000006 = .ok .nop := by decide

theorem test_decode_zero_word : decode 0x00000000 = .error .unknownOpcode := by decide
theorem test_decode_reserved_opcode : decode 0x00000012 = .error .unknownOpcode := by decide
theorem test_decode_add_rs3 : decode 0x00121301 = .error .unusedField := by decide
theorem test_decode_ldi_rs1 : decode 0x002A1407 = .error .unusedField := by decide
theorem test_decode_primegen_rs1 : decode 0x00001121 = .error .unusedField := by decide
theorem test_decode_aliased_and_illegal : decode 0x33121330 = .error .unusedField := by decide

theorem test_table_word_egcd : decodeTableWord 32 0x54021330 = some (.egcd 3 4 5 1 2) := by decide
theorem test_no_two_rows_share_an_opcode :
    opcodeMap.Pairwise fun a b => opcodeField a.bits ≠ opcodeField b.bits := by decide

/-! ### One step of each command (95_test_vectors.md sections 2.1 to 2.6) -/

theorem test_add : outcome (running 0x00021301 [(1, 5), (2, -7)] []) 3 = some (-2, 0x2) := by decide +kernel
theorem test_add_overflow :
    outcome (running 0x00021301 [(1, 2 ^ 4096 - 1), (2, 1), (3, 0x5A5A)] []) 3 = some (0x5A5A, 0x506) := by
  decide +kernel
theorem test_sub_negative : outcome (running 0x00021302 [(1, 61), (2, 62)] []) 3 = some (-1, 0x2) := by decide +kernel
theorem test_sub_overflow :
    outcome (running 0x00021302 [(1, 1 - 2 ^ 4096), (2, 1), (3, 0x5A5A)] []) 3 = some (0x5A5A, 0x506) := by
  decide +kernel
theorem test_mul_signs : outcome (running 0x00021303 [(1, -3), (2, -4)] []) 3 = some (12, 0x2) := by decide +kernel
theorem test_mul_overflow :
    outcome (running 0x00021303 [(1, 2 ^ 2048), (2, 2 ^ 2048), (3, 0x5A5A)] []) 3 = some (0x5A5A, 0x506) := by
  decide +kernel
theorem test_divmod_remainder_into_source :
    outcome (running 0x02021104 [(1, 100), (2, 7)] []) 2 = some (2, 0x2) := by decide +kernel
theorem test_divmod_domain_before_divzero :
    outcome (running 0x04021304 [(1, -9), (2, 0), (3, 0x5A5A)] []) 3 = some (0x5A5A, 0x306) := by decide +kernel
theorem test_cmp_less : outcome (running 0x00021305 [(1, 42), (2, 43)] []) 3 = some (-1, 0x2) := by decide +kernel
theorem test_cmp_equal_negative : outcome (running 0x00021305 [(1, -5), (2, -5)] []) 3 = some (0, 0x2) := by decide +kernel
theorem test_mov : outcome (running 0x00001206 [(1, -9)] []) 2 = some (-9, 0x2) := by decide +kernel
theorem test_ldi_unsigned : outcome (running 0xFFFF0407 [] []) 4 = some (65535, 0x2) := by decide +kernel
theorem test_modmul :
    outcome (running 0x00321410 [(1, 42), (2, 1499), (3, 3233)] []) 4 = some (1531, 0x2) := by decide +kernel
theorem test_modmul_zero_modulus :
    outcome (running 0x00321410 [(1, 5), (2, 6), (3, 0), (4, 0x5A5A)] []) 4 = some (0x5A5A, 0x406) := by decide +kernel
theorem test_modexp : outcome (running 0x00210311 [(0, 4), (1, 13), (2, 497)] []) 3 = some (445, 0x2) := by decide +kernel
theorem test_modexp_zero_exponent_modulus_one :
    outcome (running 0x00210311 [(0, 5), (1, 0), (2, 1), (3, 0x5A5A)] []) 3 = some (0, 0x2) := by decide +kernel
theorem test_mrtest_liars_pass : outcome (running 0x00021220 [(1, 561)] [50, 560]) 2 = some (1, 0x2) := by decide +kernel
theorem test_mrtest_stops_at_the_failing_trial :
    (match step (running 0x00031220 [(1, 561)] [50, 2, 99]) with
      | .next t => some (t.x 2, t.port.answers, t.port.drawn)
      | _ => none) = some (0, [99], 2) := by decide +kernel
theorem test_egcd_y : outcome (running 0x54021330 [(1, 240), (2, 46)] []) 5 = some (47, 0x2) := by decide +kernel
theorem test_egcd_x : outcome (running 0x54021330 [(1, 240), (2, 46)] []) 4 = some (-9, 0x2) := by decide +kernel
theorem test_modinv : outcome (running 0x00021331 [(1, 65537), (2, 3120)] []) 3 = some (2753, 0x2) := by decide +kernel
theorem test_modinv_no_inverse :
    outcome (running 0x00021331 [(1, 4), (2, 8), (3, 0x5A5A)] []) 3 = some (0x5A5A, 0x606) := by decide +kernel

/-- The all-zero byte draw with witness 2 is rejected; with PGCAP = 1 that ends PRIMEGEN (section 2.6). -/
theorem test_primegen_cap :
    outcome (({ idleState [(1, 0x5A5A)] (List.replicate 129 0 ++ [2]) with pgcap := 1 }).accept 0x00000121 []) 1 =
      some (0x5A5A, 0x706) := by decide +kernel

/-- The all-zero byte draw gives the candidate `2^1031 + 1` (section 2.6). -/
theorem test_candidate_all_zero :
    (candidate 129 { answers := List.replicate 129 0, drawn := 0 }).1 = 2 ^ 1031 + 1 := by decide +kernel

/-! ### The window and the status bits (95_test_vectors.md sections 2.5 and 2.7, program P4) -/

theorem test_read_param : State.reset.memRead 0x004 = 0x00100080 := by decide +kernel
theorem test_read_pglen : State.reset.memRead 0x008 = 0x00000081 := by decide +kernel
theorem test_write_limb :
    ((State.reset.memWrite 0x1600 0x00010001).memWrite 0x1604 2).x 3 = 8590000129 := by decide +kernel
theorem test_write_sign :
    (((State.reset.memWrite 0x1600 0x00010001).memWrite 0x1604 2).memWrite 0x020 8).x 3 = -8590000129 := by decide +kernel
theorem test_misaligned_read_is_a_bus_error : (match stepOn (.read .w32 0x002) State.reset with
    | .fault .busError => true | _ => false) = true := by decide +kernel
theorem test_narrow_read_is_a_bus_error : (match stepOn (.read .w16 0x000) State.reset with
    | .fault .busError => true | _ => false) = true := by decide +kernel
theorem test_illegal_word_at_acceptance : (State.reset.issue 0x000000FF).statusWord = 0x106 := by decide +kernel
theorem test_aliased_word_at_acceptance : (State.reset.issue 0x03021304).statusWord = 0x206 := by decide +kernel
theorem test_command_write_while_busy :
    ((State.reset.issue 0x00000121).issue 0x00000006).statusWord = 0x9 := by decide +kernel
theorem test_soft_reset_while_busy :
    ((State.reset.issue 0x00000921).memWrite 0x00C 0x2) = State.reset := by decide +kernel
theorem test_interrupt_after_an_error :
    (((State.reset.issue 0x000000FF).memWrite 0x00C 1).irq,
      (((State.reset.issue 0x000000FF).memWrite 0x00C 1).memWrite 0x010 2).irq) = (true, false) := by decide +kernel

/-! ### The assembler (30_encoding.md R90, R91) -/

theorem test_assemble_modexp :
    (assembleLine "MODEXP r3, r0, r1, r2 ; example".toList).map encode = some 0x00210311 := by decide +kernel
theorem test_assemble_hex_immediate : assembleLine "LDI r1, 0x8000".toList = some (.ldi 1 0x8000) := by decide +kernel
theorem test_assemble_sqrmod : assembleLine "SQRMOD r4, r1, r3".toList = some (.modmul 4 1 1 3) := by decide +kernel

/-! ### The host's probe: a table word runs as the first command after reset -/

theorem test_first_word_after_reset :
    (match step (State.reset.withFetchWord 32 0x002A0407) with
      | .next t => some (t.x 4, t.statusWord)
      | _ => none) = some (42, 0x2) := by decide +kernel

end Sys2Proof.Tests
end

