-- ==== Sys2Proof/Tests/Witnesses.lean ====
section
/-!
SUPPORT. For every statement that has hypotheses, a concrete state and operands that meet them, clause by clause, at
the values where clauses meet. Each theorem carries the name of its statement.
-/

-- One after another: each theorem's check would otherwise run in a thread of its own, and there are many.
set_option Elab.async false

namespace Sys2Proof.Tests
open Sys2Proof.Machine

/-- The value a running command sees for register `r`. -/
def seen (w : Word) (regs : List (Reg × Int)) (r : Reg) : Int := (running w regs []).operand r

/-- A step or engine step that answers a next state with the given property. -/
def nextIs (o : Host.Outcome State Fault Refusal) (p : State → Bool) : Bool :=
  match o with
  | .next t => p t
  | _ => false

theorem exists_of_nextIs {o : Host.Outcome State Fault Refusal} {p : State → Bool} (h : nextIs o p = true) :
    ∃ t, o = .next t ∧ p t = true := by
  cases o with
  | next t => exact ⟨t, rfl, h⟩
  | fault _ => exact absurd h (by simp [nextIs])
  | refused _ => exact absurd h (by simp [nextIs])

/-! ### Encoding and registers -/

theorem witness_EncodeOfDecodeIsIdentity : decode 0x54021330 = .ok (.egcd 3 4 5 1 2) := by decide

theorem witness_IllegalWordsAreExactlyThoseOfNoRow :
    ([0x00, 0x08, 0x0F, 0x12, 0x1F, 0x22, 0x2F, 0x32, 0xFF] : List Word).all
      (fun w => decode w == .error .unknownOpcode) = true ∧
    ([0x07, 0x10, 0x11, 0x20, 0x21, 0x30, 0x31] : List Word).all (fun w => (decode w).isOk) = true ∧
    State.reset.engine = .idle ∧ decode 0x00121301 = .error .unusedField := by decide

theorem witness_RegisterValueIsSignedLimbSum :
    State.reset.limbs[(0 : Reg)].length = State.reset.params.nlimb ∧
      State.reset.limbs[(15 : Reg)].length = State.reset.params.nlimb := by decide +kernel

theorem witness_RegistersAndOperandsStayBelowTwoPowW (regs : List (Reg × Int)) :
    (running 0x00021301 regs []).Inv := running_inv test_decode_add rfl regs []

theorem witness_ZeroAndSignAreNormalisedByCommands :
    (let s := State.reset.memWrite 0x020 8; s.magnitude 3 = 0 ∧ s.signBit 3 = true) ∧
    (running 0x00021302 [(1, 5), (2, 5)] []).Inv ∧
    (∃ t, exec (.sub 3 1 2) (running 0x00021302 [(1, 5), (2, 5)] []) = .next t ∧
      (!t.busy && t.error.isNone && decide (t.x 3 = 0)) = true) ∧
    (∃ t, exec (.sub 3 1 2) (running 0x00021302 [(1, 5), (2, 6)] []) = .next t ∧
      (!t.busy && t.error.isNone && decide (t.x 3 = -1)) = true) :=
  ⟨by decide +kernel, running_inv test_decode_sub rfl _ _, exists_of_nextIs (by decide +kernel),
    exists_of_nextIs (by decide +kernel)⟩

/-! ### Reset, steps and acceptance -/

theorem witness_BothResetsReachTheTable :
    (2 : Word).getLsbD 1 = true ∧ Instr.wf (.add 3 1 2) = true := by decide

theorem witness_EveryStepKeepsTheInvariant :
    (running 0x00021301 [] []).Inv ∧ ∃ t, step (running 0x00021301 [] []) = .next t ∧ t.done = true :=
  ⟨running_inv test_decode_add rfl _ _, exists_of_nextIs (p := fun t => t.done) (by decide +kernel)⟩

theorem witness_EngineTurnRunsTheLatchedCommand :
    (running 0x00021301 [] []).fetch = .command (.add 3 1 2) ∧ (running 0x00021301 [] []).inputs = [] := by
  decide +kernel

theorem witness_PlacedWordRunsAtTheNextStep : decodeTableWord 32 0x00021301 = some (.add 3 1 2) := by decide

theorem witness_AcceptanceLatchesTheCommand :
    State.reset.engine = .idle ∧ decode 0x00121301 = .error .unusedField ∧
    decode 0x03021304 = .ok (.divmod 3 3 1 2) ∧ Instr.wf (.divmod 3 3 1 2) = false ∧
    decode 0x04021304 = .ok (.divmod 3 4 1 2) ∧ Instr.wf (.divmod 3 4 1 2) = true ∧
    (running 0x00021301 [] []).busy = true ∧
    ([0x1000, 0x2FFC, 0x020, 0x01C] : List Offset).all (fun offset =>
      isOperandWindow (windowReg Config.reference offset.toNat) &&
        nextIs (stepOn (.write .w32 offset 7) (running 0x00021301 [] [])) fun _ => true) = true := by
  decide +kernel

theorem witness_AcceptanceTimeErrorsNeverMakeTheEngineBusy :
    State.reset.engine = .idle ∧ decode 0x33121330 = .error .unusedField ∧
    decode 0x34021330 = .ok (.egcd 3 4 3 1 2) ∧ Instr.wf (.egcd 3 4 3 1 2) = false := by decide

theorem witness_CoincidingDestinationsAreRejectedAtAcceptance :
    State.reset.engine = .idle ∧ Instr.wf (.divmod 3 3 1 2) = false ∧ Instr.wf (.divmod 3 4 1 2) = true := by decide

theorem witness_CommandWriteWhileBusyIsDropped : ∃ l, (running 0x00021301 [] []).engine = .busy l := ⟨_, rfl⟩

theorem witness_EveryCommandTakesOneEngineStep :
    (∀ rd, Instr.add 3 1 2 ≠ .primegen rd) ∧ (running 0x00021301 [] []).busy = true ∧
    nextIs (stepOn (.read .w32 0x010) (running 0x00021301 [] [])) (fun _ => true) = true ∧
    nextIs (stepOn (.write .w32 0x014 6) (running 0x00021301 [] [])) (fun _ => true) = true ∧
    windowReg Config.reference 0x00C = .ctrl ∧ (1 : Word).getLsbD 1 = false ∧
    nextIs (stepOn (.write .w32 0x00C 1) (running 0x00021301 [] [])) (fun _ => true) = true := by
  refine ⟨nofun, ?_⟩
  decide +kernel

theorem witness_IdleEngineStaysAsItIs : State.reset.engine = .idle ∧ State.reset.inputs = [] := ⟨rfl, rfl⟩

/-! ### Results -/

theorem witness_AddCommitsTheExactSum :
    (seen 0x00021301 [(1, 2 ^ 4096 - 2), (2, 1)] 1 + seen 0x00021301 [(1, 2 ^ 4096 - 2), (2, 1)] 2).natAbs <
      2 ^ (running 0x00021301 [] []).params.width ∧
    2 ^ (running 0x00021301 [] []).params.width ≤
      (seen 0x00021301 [(1, 2 ^ 4096 - 1), (2, 1)] 1 + seen 0x00021301 [(1, 2 ^ 4096 - 1), (2, 1)] 2).natAbs := by
  decide +kernel

theorem witness_SubCommitsTheExactDifference :
    (seen 0x00021302 [(1, 0), (2, 2 ^ 4096 - 1)] 1 - seen 0x00021302 [(1, 0), (2, 2 ^ 4096 - 1)] 2).natAbs <
      2 ^ (running 0x00021302 [] []).params.width ∧
    2 ^ (running 0x00021302 [] []).params.width ≤
      (seen 0x00021302 [(1, -1), (2, 2 ^ 4096 - 1)] 1 - seen 0x00021302 [(1, -1), (2, 2 ^ 4096 - 1)] 2).natAbs := by
  decide +kernel

theorem witness_MulCommitsTheExactProduct :
    (seen 0x00021303 [(1, 1 - 2 ^ 2048), (2, 2 ^ 2048)] 1 * seen 0x00021303 [(1, 1 - 2 ^ 2048), (2, 2 ^ 2048)] 2).natAbs <
      2 ^ (running 0x00021303 [] []).params.width ∧
    2 ^ (running 0x00021303 [] []).params.width ≤
      (seen 0x00021303 [(1, -2 ^ 2048), (2, 2 ^ 2048)] 1 * seen 0x00021303 [(1, -2 ^ 2048), (2, 2 ^ 2048)] 2).natAbs := by
  decide +kernel

theorem witness_DivmodCommitsQuotientAndRemainder :
    (∀ regs, (running 0x04021304 regs []).Inv) ∧ ((idleState [] []).Inv ∧ (idleState [] []).engine = .idle) ∧
    seen 0x04021304 [(1, -1), (2, 0)] 1 = -1 ∧ seen 0x04021304 [(1, 0), (2, -1)] 2 = -1 ∧
    (seen 0x04021304 [(1, 0), (2, 0)] 1 = 0 ∧ seen 0x04021304 [(1, 0), (2, 0)] 2 = 0) ∧
    (seen 0x04021304 [(1, 0), (2, 1)] 1 = 0 ∧ seen 0x04021304 [(1, 0), (2, 1)] 2 = 1) :=
  ⟨fun regs => running_inv test_decode_divmod rfl regs [], ⟨idleState_inv _ _, rfl⟩, by decide +kernel⟩

theorem witness_CmpCommitsTheThreeWayComparison :
    (∀ regs, (running 0x00021305 regs []).Inv) ∧
    seen 0x00021305 [(1, -1), (2, 0)] 1 < seen 0x00021305 [(1, -1), (2, 0)] 2 ∧
    seen 0x00021305 [(1, 0), (2, 0)] 1 = seen 0x00021305 [(1, 0), (2, 0)] 2 ∧
    seen 0x00021305 [(1, 1), (2, 0)] 2 < seen 0x00021305 [(1, 1), (2, 0)] 1 :=
  ⟨fun regs => running_inv (i := .cmp 3 1 2) (by decide) rfl regs [], by decide +kernel⟩

theorem witness_MovCommitsTheSource (regs : List (Reg × Int)) : (running 0x00001206 regs []).Inv :=
  running_inv test_decode_mov rfl regs []

theorem witness_LdiCommitsTheImmediate :
    (running 0x002A0407 [] []).Inv ∧ ((idleState [] []).Inv ∧ (idleState [] []).engine = .idle) ∧ (1 : Reg) ≠ 0 :=
  ⟨running_inv test_decode_ldi rfl [] [], ⟨idleState_inv _ _, rfl⟩, by decide⟩

theorem witness_ModmulCommitsTheProductModM :
    (∀ regs, (running 0x00321410 regs []).Inv) ∧
    seen 0x00321410 [(1, -1)] 1 = -1 ∧ seen 0x00321410 [(2, -1)] 2 = -1 ∧ seen 0x00321410 [(3, -1)] 3 = -1 ∧
    (seen 0x00321410 [] 1 = 0 ∧ seen 0x00321410 [] 2 = 0 ∧ seen 0x00321410 [] 3 = 0) ∧
    (seen 0x00321410 [(3, 1)] 1 = 0 ∧ seen 0x00321410 [(3, 1)] 2 = 0 ∧ seen 0x00321410 [(3, 1)] 3 = 1) :=
  ⟨fun regs => running_inv test_decode_modmul rfl regs [], by decide +kernel⟩

theorem witness_ModexpCommitsThePowerModM :
    (∀ regs, (running 0x00210311 regs []).Inv) ∧
    seen 0x00210311 [(0, -1)] 0 = -1 ∧ seen 0x00210311 [(1, -1)] 1 = -1 ∧ seen 0x00210311 [(2, -1)] 2 = -1 ∧
    (seen 0x00210311 [] 0 = 0 ∧ seen 0x00210311 [] 1 = 0 ∧ seen 0x00210311 [] 2 = 0) ∧
    (seen 0x00210311 [(2, 1)] 0 = 0 ∧ seen 0x00210311 [(2, 1)] 1 = 0 ∧ seen 0x00210311 [(2, 1)] 2 = 1) :=
  ⟨fun regs => running_inv test_decode_modexp rfl regs [], by decide +kernel⟩

theorem witness_PowerIsTheModularPower : (1 : Nat) ≤ 1 := le_refl 1

theorem witness_EgcdCommitsGcdAndCoefficients :
    (∀ regs, (running 0x54021330 regs []).Inv) ∧ ((idleState [] []).Inv ∧ (idleState [] []).engine = .idle) ∧
    Instr.wf (.egcd 3 4 5 1 2) = true ∧
    Instr.wf (.egcd 3 3 5 1 2) = false ∧
    seen 0x54021330 [(1, -1)] 1 = -1 ∧ seen 0x54021330 [(2, -1)] 2 = -1 ∧
    (seen 0x54021330 [] 1 = 0 ∧ seen 0x54021330 [] 2 = 0) :=
  ⟨fun regs => running_inv test_decode_egcd rfl regs [], ⟨idleState_inv _ _, rfl⟩, by decide +kernel⟩

theorem witness_EgcdIsTheDescentAndMeetsItsContract : (1 : Nat) ≠ 0 := one_ne_zero

theorem witness_ModinvCommitsTheInverse :
    (∀ regs, (running 0x00021331 regs []).Inv) ∧
    seen 0x00021331 [(1, -1)] 1 = -1 ∧ seen 0x00021331 [(2, -1)] 2 = -1 ∧
    (seen 0x00021331 [] 1 = 0 ∧ seen 0x00021331 [] 2 = 0) ∧
    (seen 0x00021331 [(2, 2)] 1 = 0 ∧ seen 0x00021331 [(2, 2)] 2 = 2 ∧ Int.gcd 0 2 ≠ 1) ∧
    (seen 0x00021331 [(2, 1)] 1 = 0 ∧ seen 0x00021331 [(2, 1)] 2 = 1 ∧ Int.gcd 0 1 = 1) ∧
    (seen 0x00021331 [(1, 1), (2, 2)] 1 = 1 ∧ seen 0x00021331 [(1, 1), (2, 2)] 2 = 2 ∧ Int.gcd 1 2 = 1) :=
  ⟨fun regs => running_inv test_decode_modinv rfl regs [], by decide +kernel⟩

/-! ### Miller-Rabin -/

/-- `n - 1 = 2^r · d` with `d` odd and a passing power shows a passing trial. -/
theorem passes_of {n a : Nat} (r d : Nat) (h : n - 1 = 2 ^ r * d) (hd : d % 2 = 1)
    (hp : a ^ d % n = 1 ∨ ∃ j < r, a ^ (2 ^ j * d) % n = n - 1) : PassesTrial n a := ⟨r, d, h, hd, hp⟩

theorem nine_passes_eight : PassesTrial 9 8 := passes_of 3 1 rfl rfl (.inr ⟨0, by decide, rfl⟩)

theorem nine_fails_two : ¬ PassesTrial 9 2 := by
  rintro ⟨r, d, h, hd, hp⟩
  have h8 : 2 ^ r * d = 8 := h.symm
  have hdvd : d ∣ 8 := ⟨2 ^ r, by rw [← h8, Nat.mul_comm]⟩
  have hle := Nat.le_of_dvd (by decide) hdvd
  interval_cases d <;> simp_all
  have hr : r = 3 := Nat.pow_right_injective (le_refl 2) (by simpa using h8)
  subst hr
  obtain ⟨j, hj, he⟩ := hp
  interval_cases j <;> simp at he

theorem witness_WitnessesLieInTheirRange : (3 : Nat) ≤ 3 ∧ (2 : Nat) ≤ min (3 - 1) 100000 := by decide

theorem witness_MrtestRunsItsTrialsInOrder :
    (∀ regs answers, (running 0x00021220 regs answers).Inv) ∧
    seen 0x00021220 [(1, -1)] 1 = -1 ∧ seen 0x00021220 [(1, 1)] 1 = 1 ∧ seen 0x00021220 [] 1 = 0 ∧
    seen 0x00021220 [(1, 3)] 1 = 3 ∧ seen 0x00021220 [(1, 9)] 1 = 9 ∧
    (∀ t < 2, PassesTrial 9 (witnessAt 9 (running 0x00021220 [(1, 9)] [8, 8]).port t)) ∧
    (∀ t < 1, PassesTrial 9 (witnessAt 9 (running 0x00021220 [(1, 9)] [8, 2]).port t)) ∧
    ¬ PassesTrial 9 (witnessAt 9 (running 0x00021220 [(1, 9)] [8, 2]).port 1) := by
  refine ⟨fun regs answers => running_inv (i := .mrtest 2 1 2) (by decide) rfl regs answers, by decide +kernel,
    by decide +kernel, by decide +kernel, by decide +kernel, by decide +kernel, ?_, ?_, ?_⟩
  · intro t ht
    have : witnessAt 9 (running 0x00021220 [(1, 9)] [8, 8]).port t = 8 := by
      interval_cases t <;> decide +kernel
    rw [this]; exact nine_passes_eight
  · intro t ht
    have : witnessAt 9 (running 0x00021220 [(1, 9)] [8, 2]).port t = 8 := by
      interval_cases t; decide +kernel
    rw [this]; exact nine_passes_eight
  · have : witnessAt 9 (running 0x00021220 [(1, 9)] [8, 2]).port 1 = 2 := by decide +kernel
    rw [this]; exact nine_fails_two

theorem witness_MrtestAcceptsEveryOddPrime :
    (running 0x00021220 [(1, 97)] []).Inv ∧ Nat.Prime 97 ∧ 97 ≠ 2 ∧ seen 0x00021220 [(1, 97)] 1 = (97 : Nat) :=
  ⟨running_inv (i := .mrtest 2 1 2) (by decide) rfl _ _, by norm_num, by decide, by decide +kernel⟩

theorem witness_MrtestOnACompositeDependsOnItsDraws :
    (running 0x00011220 [(1, 561)] []).Inv ∧ seen 0x00011220 [(1, 561)] 1 = 561 :=
  ⟨running_inv (i := .mrtest 2 1 1) (by decide) rfl _ _, by decide +kernel⟩

/-! ### PRIMEGEN -/

/-- An NTE that runs `PRIMEGEN r1` under the given latched cap and answers of the random port. -/
def generating (cap : Word) (answers : List Nat) : State :=
  ({ idleState [] answers with pgcap := cap } : State).accept 0x00000121 []

theorem generating_inv (cap : Word) (answers : List Nat) : (generating cap answers).Inv := by
  have hi := idleState_inv [] answers
  have hs : ({ idleState [] answers with pgcap := cap } : State).Inv := inv_of_idle hi.params hi.limbs rfl
  exact accept_inv hs test_decode_primegen rfl

/-- `(2^1033 + 1) / 3`, of bit length 1032: a strong pseudoprime to base 2 by construction. -/
def pseudoprime : Nat := (2 ^ 1033 + 1) / 3

/-- The 129 bytes of `pseudoprime`, most significant first, then twenty witnesses 2. -/
def passingAnswers : List Nat :=
  (List.range 129).map (fun i => pseudoprime / 256 ^ (128 - i) % 256) ++ List.replicate 20 2

/-- The all-zero byte draw, whose candidate is `2^1031 + 1`, then witness 2. -/
def failingAnswers : List Nat := List.replicate 129 0 ++ [2]

theorem odd_pow_of_minus_one {n x m : Nat} (hn : 2 ≤ n) (hx : x % n = n - 1) (hm : m % 2 = 1) :
    x ^ m % n = n - 1 := by
  have hsq : x ^ 2 % n = 1 := by
    rw [Nat.pow_mod, hx]
    obtain ⟨k, rfl⟩ : ∃ k, n = k + 1 := ⟨n - 1, by omega⟩
    have : (k + 1 - 1) ^ 2 = 1 + (k + 1) * (k - 1) := by
      obtain ⟨j, rfl⟩ : ∃ j, k = j + 1 := ⟨k - 1, by omega⟩
      simp only [Nat.add_sub_cancel]; ring
    rw [this, Nat.add_mul_mod_self_left, Nat.mod_eq_of_lt (by omega)]
  have hm' : m = 2 * (m / 2) + 1 := by omega
  rw [hm', pow_succ, pow_mul, Nat.mul_mod, Nat.pow_mod, hsq, one_pow, Nat.mod_eq_of_lt (by omega : 1 < n), one_mul,
    Nat.mod_mod, hx]

/-- Where `2^q` is `n - 1` modulo `n` and `n - 1` is twice an odd multiple of the odd `q`, witness 2 passes. -/
theorem passes_two_of {n q e : Nat} (hn : 2 ≤ n) (hdecomp : n - 1 = 2 * (q * e)) (hq : 2 ^ q % n = n - 1)
    (hodd : q * e % 2 = 1) (he : e % 2 = 1) : PassesTrial n 2 := by
  refine passes_of 1 (q * e) (by rw [pow_one, hdecomp]) hodd (.inr ⟨0, one_pos, ?_⟩)
  rw [pow_zero, one_mul, pow_mul]
  exact odd_pow_of_minus_one hn hq he

theorem pseudoprime_passes_two : PassesTrial pseudoprime 2 :=
  passes_two_of (q := 1033) (e := (2 ^ 1032 - 1) / 3 / 1033) (by decide +kernel) (by decide +kernel)
    (by decide +kernel) (by decide +kernel) (by decide +kernel)

theorem rejected_fails_two : ¬ PassesTrial (2 ^ 1031 + 1) 2 := by
  rintro ⟨r, d, h, hd, hp⟩
  rw [Nat.add_sub_cancel] at h hp
  have hdvd : d ∣ 2 ^ 1031 := ⟨2 ^ r, by rw [h, Nat.mul_comm]⟩
  obtain ⟨k, -, hk⟩ := (Nat.dvd_prime_pow Nat.prime_two).1 hdvd
  have hk0 : k = 0 := by
    by_contra hne
    have : 2 ∣ d := hk ▸ dvd_pow_self 2 hne
    omega
  subst hk0
  rw [pow_zero] at hk
  subst hk
  simp only [pow_one, mul_one] at hp
  have hthree : 3 ∣ 2 ^ 1031 + 1 := by decide +kernel
  have hbig : 2 < 2 ^ 1031 + 1 := by decide +kernel
  have hne : 2 ≠ 2 ^ 1031 := by decide +kernel
  have hres : 2 ^ 1031 % 3 = 2 := by decide +kernel
  generalize 2 ^ 1031 = m at *
  rcases hp with hp | ⟨j, -, hj⟩
  · rw [Nat.mod_eq_of_lt hbig] at hp; omega
  · cases j with
    | zero => rw [pow_zero, pow_one, Nat.mod_eq_of_lt hbig] at hj; exact hne hj
    | succ j =>
      have h1 : 2 ^ 2 ^ (j + 1) % 3 = 1 := by
        rw [pow_succ, Nat.mul_comm, pow_mul, Nat.pow_mod]; norm_num
      have h2 : 2 ^ 2 ^ (j + 1) % (m + 1) % 3 = 2 ^ 2 ^ (j + 1) % 3 := Nat.mod_mod_of_dvd _ hthree
      rw [hj, h1] at h2
      omega

theorem witness_CandidatesAreFormedFromTheDrawnBytes : (1 : Nat) ≤ 1 := le_refl 1

theorem generating_passing_candidate :
    (candidate 129 (generating 0 passingAnswers).port).1 = pseudoprime ∧
      (∀ t < 20, witnessAt pseudoprime ((generating 0 passingAnswers).port.after 129) t = 2) := by
  decide +kernel

theorem generating_failing_candidate :
    (candidate 129 (generating 1 failingAnswers).port).1 = 2 ^ 1031 + 1 ∧
      witnessAt (2 ^ 1031 + 1) ((generating 1 failingAnswers).port.after 129) 0 = 2 := by
  decide +kernel

theorem witness_PrimegenStepTestsOneCandidate :
    (∀ cap answers, (generating cap answers).Inv) ∧
    (∀ t < 20, PassesTrial (candidate 129 (generating 0 passingAnswers).port).1
      (witnessAt (candidate 129 (generating 0 passingAnswers).port).1
        ((generating 0 passingAnswers).port.after 129) t)) ∧
    (¬ PassesTrial (candidate 129 (generating 1 failingAnswers).port).1
      (witnessAt (candidate 129 (generating 1 failingAnswers).port).1
        ((generating 1 failingAnswers).port.after 129) 0)) ∧
    ((generating 1 []).capInForce ≠ 0 ∧ (generating 1 []).candidatesSoFar + 1 = (generating 1 []).capInForce.toNat) ∧
    (generating 0 []).capInForce = 0 ∧
    ((generating 2 []).candidatesSoFar + 1 ≠ (generating 2 []).capInForce.toNat) := by
  refine ⟨generating_inv, fun t ht => ?_, ?_, by decide +kernel, by decide +kernel, by decide +kernel⟩
  · rw [generating_passing_candidate.1, generating_passing_candidate.2 t ht]; exact pseudoprime_passes_two
  · rw [generating_failing_candidate.1, generating_failing_candidate.2]; exact rejected_fails_two

theorem witness_PrimegenCommitsOddFullLengthValues :
    (generating 0 passingAnswers).Inv ∧
    ∃ t, exec (.primegen 1) (generating 0 passingAnswers) = .next t ∧ (!t.busy && t.error.isNone) = true :=
  ⟨generating_inv 0 _, exists_of_nextIs (p := fun t => !t.busy && t.error.isNone) (by decide +kernel)⟩

theorem witness_CappedPrimegenEndsWithinItsCap :
    (generating 1 []).Inv ∧ (generating 1 []).fetch = .command (.primegen 1) ∧ (generating 1 []).inputs = [] ∧
      (generating 1 []).capInForce ≠ 0 := ⟨generating_inv 1 [], by decide +kernel, rfl, by decide +kernel⟩

/-! ### Errors, frames and host writes -/

theorem witness_FailingCommandRecordsItsErrorOnly :
    ∃ t, exec (.divmod 3 4 1 2) (running 0x04021304 [(1, 9)] []) = .next t ∧
      decide (t.error = some .divZero) = true := exists_of_nextIs (by decide +kernel)

theorem witness_ErrorsComeFromTheCommandsThatMayReportThem :
    ∃ t, exec (.modinv 3 1 2) (running 0x00021331 [(1, 4), (2, 8)] []) = .next t ∧
      (decide (t.error = some .noInverse) && !Instr.wf (.divmod 3 3 1 2)) = true := exists_of_nextIs (by decide +kernel)

theorem witness_CommandsChangeNothingElse :
    (∃ t, exec (.add 3 1 2) (running 0x00021301 [(1, 9)] []) = .next t ∧ (!t.err) = true) ∧
    (4 : Reg) ∉ destsOf (.add 3 1 2) ∧ drawsRandom (.add 3 1 2) = false ∧
    mayChange (.add 3 1 2) (windowReg Config.reference 0x1000) = false :=
  ⟨exists_of_nextIs (p := fun t => !t.err) (by decide +kernel), by decide, rfl, by decide⟩

theorem witness_LatchedInputsDecideTheResult :
    (∃ l, (running 0x00021301 [(1, 9)] []).engine = .busy l ∧
      ((running 0x00021301 [(1, 9)] []).writeX 1 5).engine = .busy l ∧
      sourcesOf (.add 3 1 2) = l.sources.map Prod.fst) ∧
    (∃ t, exec (.add 3 1 2) (running 0x00021301 [(1, 9)] []) = .next t ∧
      (!t.busy && t.error.isNone && decide (t.x 3 = 9)) = true) ∧
    (∃ t, exec (.add 3 1 2) ((running 0x00021301 [(1, 9)] []).writeX 1 5) = .next t ∧
      (!t.busy && t.error.isNone && decide (t.x 3 = 9)) = true) :=
  ⟨⟨_, rfl, rfl, rfl⟩, exists_of_nextIs (by decide +kernel), exists_of_nextIs (by decide +kernel)⟩

theorem witness_HostWritesWhileBusyDoNotReachTheCommand :
    (running 0x04021304 [(1, 9)] []).Inv ∧ (running 0x04021304 [(1, 9)] []).fetch = .command (.divmod 3 4 1 2) ∧
    ([0x1000, 0x2FFC, 0x020, 0x01C] : List Offset).all (fun offset =>
      offset.toNat % 4 == 0 && isOperandWindow (windowReg Config.reference offset.toNat)) = true ∧
    (∃ t, exec (.divmod 3 4 1 2) (running 0x04021304 [(1, 9)] []) = .next t ∧ t.error.isSome = true) ∧
    (∃ t, exec (.divmod 3 4 1 2) (running 0x04021304 [(1, 9), (2, 1)] []) = .next t ∧
      (!t.busy && t.error.isNone) = true) :=
  ⟨running_inv test_decode_divmod rfl _ _, by decide +kernel, by decide +kernel,
    exists_of_nextIs (p := fun t => t.error.isSome) (by decide +kernel),
    exists_of_nextIs (p := fun t => !t.busy && t.error.isNone) (by decide +kernel)⟩

/-! ### The window -/

theorem witness_StepsStopOnlyOnBusErrors :
    (match stepOn (.write .w32 0x002 0) State.reset with | .fault .busError => true | _ => false) = true ∧
      nextIs (step State.reset) (fun _ => true) = true := by decide +kernel

theorem witness_IllegalAccessesAreBusErrors :
    Width.w16 ≠ .w32 ∧ (0x002 : Offset).toNat % 4 ≠ 0 ∧ (0xFFFC : Offset).toNat % 4 = 0 := by decide

theorem witness_HostReadsHaveNoSideEffect : (0x010 : Offset).toNat % 4 = 0 := by decide

theorem witness_LimbsAreReadAndWrittenAtTheirOffsets :
    (running 0x00021301 [] []).Inv ∧ 0 < (running 0x00021301 [] []).params.nlimb ∧
      127 < (running 0x00021301 [] []).params.nlimb ∧ (0x2FFC : Offset).toNat % 4 = 0 ∧ (0x2FFC : Offset) ≠ 0x1000 :=
  ⟨running_inv test_decode_add rfl _ _, by decide +kernel⟩

theorem witness_ReservedOffsetsAndBitsReadZero :
    (running 0x00021301 [] []).Inv ∧
    ([0x024, 0x0FFC, 0x3000, 0xFFFC] : List Offset).all (fun offset => offset.toNat % 4 == 0 &&
      decide ((0x024 ≤ offset.toNat ∧ offset.toNat ≤ 0x0FFF) ∨
        0x1000 + 64 * (running 0x00021301 [] []).params.nlimb ≤ offset.toNat)) = true :=
  ⟨running_inv test_decode_add rfl _ _, by decide +kernel⟩

theorem witness_ReadOnlyRegistersIgnoreWrites : (running 0x00021301 [] []).Inv :=
  running_inv test_decode_add rfl _ _

theorem witness_ControlWritesStoreIeOrReset :
    (2 : Word).getLsbD 1 = true ∧ (3 : Word).getLsbD 1 = true ∧ (1 : Word).getLsbD 1 = false := by decide

theorem witness_StatusReadsItsFieldsAndClearsByOne :
    State.reset.err = false ∧ (running 0x00021301 [] []).busy = true := by decide +kernel

theorem witness_PgcapIsStoredAndLatched : ∃ l, (generating 5 []).engine = .busy l ∧ l.cap = 5 := ⟨_, rfl, rfl⟩

theorem witness_InterruptFollowsEnableAndDone :
    (∃ t, exec (.add 3 1 2) (running 0x00021301 [] []) = .next t ∧ (!t.busy) = true) ∧
    (∀ i, decode 0x000000FF = .ok i → i.wf = false) ∧
    (2 : Word).getLsbD 1 = true ∧ (2 : Word).getLsbD 0 = false ∧ State.reset.engine = .idle ∧
    Instr.wf (.add 3 1 2) = true :=
  ⟨exists_of_nextIs (p := fun t => !t.busy) (by decide +kernel),
    fun _ h => (nomatch (show decode 0x000000FF = .error .unknownOpcode by decide).symm.trans h), by decide⟩

end Sys2Proof.Tests
end

/-! ## Scope: the steps of the machine and its invariant (00_scope.md R6, R7; 10_state.md R21, R25, R26)

`State.Inv` is kept by each kind of event: a host access, a reset, and a turn of the engine. -/

namespace Sys2Proof.Machine

/-! ### Host accesses keep the invariant -/

/-- A change that leaves the parameters, the registers' lengths and the command in progress alone, and sets neither
DONE nor ERR, keeps the invariant. -/
theorem inv_of_sameCommand {s t : State} (h : s.Inv) (params : t.params = s.params)
    (limbs : ∀ r : Reg, t.limbs[r].length = s.limbs[r].length) (engine : t.engine = s.engine)
    (candidates : t.candidates = s.candidates) (done : s.done = false → t.done = false)
    (error : s.error = none → t.error = none) : t.Inv where
  params := params ▸ h.params
  limbs r := by rw [limbs, params, h.limbs]
  quiet hb := by
    obtain ⟨hd, he⟩ := h.quiet (by simpa only [State.busy, engine] using hb)
    exact ⟨done hd, error he⟩
  latch l hl := by rw [params]; exact h.latch l (engine ▸ hl)
  cap l hl := by rw [candidates]; exact h.cap l (engine ▸ hl)

theorem issue_inv {s : State} (h : s.Inv) (w : Word) : (s.issue w).Inv := by
  cases he : s.engine with
  | busy l => rw [issue_busy he]; exact inv_of_sameCommand h rfl (fun _ => rfl) rfl rfl id id
  | idle =>
    cases hd : decode w with
    | error e => rw [issue_illegal he hd]; exact raise_inv h _ _
    | ok i =>
      cases hw : i.wf with
      | false => rw [issue_coinciding he hd hw]; exact raise_inv h _ _
      | true => rw [issue_accepted he hd hw]; exact accept_inv h hd hw

theorem writeCtrl_inv {s : State} (h : s.Inv) (v : Word) : (s.writeCtrl v).Inv := by
  unfold State.writeCtrl
  split
  · exact resetNte_inv h
  · exact inv_of_sameCommand h rfl (fun _ => rfl) rfl rfl id id

theorem acknowledge_inv {s : State} (h : s.Inv) (v : Word) : (s.acknowledge v).Inv :=
  inv_of_sameCommand h rfl (fun _ => rfl) rfl rfl (fun hd => by simp [hd]) (fun he => by simp [he])

theorem writeReg_limb_length (s : State) (i r : Reg) (j : Nat) (v : Word) :
    (s.writeReg (.limb i j) v).limbs[r].length = s.limbs[r].length := by
  by_cases e : i.val = r.val <;> simp [State.writeReg, e]

theorem writeReg_inv {s : State} (h : s.Inv) (r : WindowReg) (v : Word) : (s.writeReg r v).Inv := by
  cases r with
  | ctrl => exact writeCtrl_inv h v
  | status => exact acknowledge_inv h v
  | cmd => exact issue_inv h v
  | pgcap => exact inv_of_sameCommand h rfl (fun _ => rfl) rfl rfl id id
  | sign => exact inv_of_sameCommand h rfl (fun _ => rfl) rfl rfl id id
  | limb i j => exact inv_of_sameCommand h rfl (fun r => writeReg_limb_length s i r j v) rfl rfl id id
  | id | param | pglen | errcmd | reserved => exact h

theorem hostWrite_inv {s t : State} (h : s.Inv) {width : Width} {offset : Offset} {v : Word}
    (ht : hostWrite width offset v s = .next t) : t.Inv := by
  unfold hostWrite at ht
  split at ht
  · cases ht; exact writeReg_inv h _ v
  · cases ht

theorem hostRead_inv {s t : State} (h : s.Inv) {width : Width} {offset : Offset}
    (ht : hostRead width offset s = .next t) : t.Inv := by
  unfold hostRead at ht
  split at ht
  · cases ht; exact inv_of_sameCommand h rfl (fun _ => rfl) rfl rfl id id
  · cases ht

/-! ### The engine's turn keeps the invariant -/

/-- A rejected candidate that leaves PRIMEGEN going keeps the invariant: the count stays below the latched cap, since
it was below it and has not reached it (42_primality.md R136). -/
theorem goesOn_inv {s : State} {l : Latch} (h : s.Inv) (hb : s.engine = .busy l) (p : Port)
    (below : l.cap = 0 ∨ s.candidates + 1 ≠ l.cap.toNat) :
    State.Inv { s with
      candidates := s.candidates + 1, port := p, engine := .busy l, done := false, error := none } where
  params := h.params
  limbs := h.limbs
  quiet _ := ⟨rfl, rfl⟩
  latch l' hl := by cases hl; exact h.latch l hb
  cap l' hl hc := by
    cases hl
    have hlt := h.cap l hb hc
    have hne := below.resolve_left hc
    show s.candidates + 1 < l.cap.toNat
    omega

/-- The engine step of any command keeps the invariant of a busy state. -/
theorem exec_inv {s t : State} {l : Latch} {i : Instr} (h : s.Inv) (hb : s.engine = .busy l)
    (ht : exec i s = .next t) : t.Inv := by
  obtain ⟨k, p, t', he, -, -, hk, hend⟩ := exec_cases i s
  cases he.symm.trans ht
  cases hend with
  | committed ws _ _ eq =>
    subst eq
    exact inv_of_idle (by simpa using h.params)
      (fun r => by simpa using writeAll_limbs_length { s with candidates := k, port := p } ws r (h.limbs r)) rfl
  | failed code _ eq => subst eq; exact inv_of_idle h.params h.limbs rfl
  | goesOn rd isPrimegen below eq =>
    have hk := hk ⟨rd, isPrimegen⟩
    have hl : s.latchInForce i = l := by simp [State.latchInForce, hb]
    simp only [State.candidatesSoFar, State.capInForce, hb] at hk below
    subst eq hk
    rw [hl]
    exact goesOn_inv h hb p below

/-- In a state of the invariant the busy engine finds a command to run, the latch being as acceptance made it. -/
theorem engineTurn_inv {s t : State} (h : s.Inv) (ht : engineTurn s = .next t) : t.Inv := by
  cases he : s.engine with
  | idle =>
    cases (engineTurn_idle he).symm.trans ht
    exact h
  | busy l =>
    obtain ⟨i, hd, -, -⟩ := (h.latch l he).command
    exact exec_inv h he ((engineTurn_busy he hd).symm.trans ht)

/-! ### Every step -/

theorem runInput_inv {s t : State} (h : s.Inv) (e : Input) (ht : runInput e s = .next t) : t.Inv := by
  cases e with
  | read width offset => exact hostRead_inv h ht
  | write width offset v => exact hostWrite_inv h ht
  | resetPin => cases ht; exact resetNte_inv h
  | engineTurn => exact engineTurn_inv h ht

theorem takeInput_inv {s : State} (h : s.Inv) : s.takeInput.2.Inv := by
  cases hi : s.inputs with
  | nil => rw [takeInput_nil hi]; exact h
  | cons e es =>
    simp only [State.takeInput, hi]
    exact inv_of_sameCommand h rfl (fun _ => rfl) rfl rfl id id

/-- Settles O13: the state with the next event taken out meets the invariant, and each kind of event keeps it. -/
theorem everyStepKeepsTheInvariant : Obligations.EveryStepKeepsTheInvariant := by
  intro s t h ht
  exact runInput_inv (takeInput_inv h) s.takeInput.1 ht

/-- Settles O14: no event and a listed engine turn are both the engine's turn, which runs the latched command. -/
theorem engineTurnRunsTheLatchedCommand : Obligations.EngineTurnRunsTheLatchedCommand := by
  intro s l i hb hd
  have turn := engineTurn_busy hb hd
  exact ⟨fun hn => (step_no_input hn).trans turn, (stepOn_eq .engineTurn s).trans turn⟩

/-- Settles O21: no event and a listed engine turn are both the engine's turn, which an idle engine lets pass. -/
theorem idleEngineStaysAsItIs : Obligations.IdleEngineStaysAsItIs := by
  intro s hi
  have turn := engineTurn_idle hi
  exact ⟨fun hn => (step_no_input hn).trans turn, (stepOn_eq .engineTurn s).trans turn⟩

end Sys2Proof.Machine

/-! ## Scope: the state of the NTE and what commands, host accesses and resets leave of it (10_state.md)

A command's engine step is split into its `Turn`, which the latched inputs decide, and the end of that turn. -/

namespace Sys2Proof

/-! ### Words as numbers and as lanes -/

theorem toNat_append_eq_add {m n : Nat} (x : BitVec m) (y : BitVec n) :
    (x ++ y).toNat = 2 ^ n * x.toNat + y.toNat := by
  rw [BitVec.toNat_append, ← Nat.shiftLeft_add_eq_or_of_lt y.isLt, Nat.shiftLeft_eq, Nat.mul_comm]

theorem zero_append_extract_eq_and (v : Word) : (0 : BitVec 16) ++ v.extractLsb' 0 16 = v &&& 0xFFFF := by
  refine BitVec.eq_of_toNat_eq ?_
  rw [toNat_append_eq_add, BitVec.toNat_and]
  simp [Nat.and_two_pow_sub_one_eq_mod _ 16]

theorem wordOfLanes_laneOf (w : Word) : wordOfLanes ((List.range 4).map (laneOf w)) = some w := by
  have two : laneOf w 3 ++ laneOf w 2 = w.extractLsb' 16 16 :=
    BitVec.extractLsb'_append_extractLsb'_eq_extractLsb' rfl
  have three : w.extractLsb' 16 16 ++ laneOf w 1 = w.extractLsb' 8 24 :=
    BitVec.extractLsb'_append_extractLsb'_eq_extractLsb' rfl
  have four : w.extractLsb' 8 24 ++ laneOf w 0 = w.extractLsb' 0 32 :=
    BitVec.extractLsb'_append_extractLsb'_eq_extractLsb' rfl
  show some (laneOf w 3 ++ laneOf w 2 ++ laneOf w 1 ++ laneOf w 0) = some w
  rw [two, three, four, extract_all]

theorem decode_of_decodeTableWord {w : Nat} {i : Instr} (h : decodeTableWord 32 w = some i) :
    decode (BitVec.ofNat 32 w) = .ok i := by
  unfold decodeTableWord at h
  split at h
  · rw [wordOfLanes_laneOf] at h
    cases hd : decode (BitVec.ofNat 32 w) with
    | ok j => simpa [hd, Except.toOption] using h
    | error e => simp [hd, Except.toOption] at h
  · cases h

end Sys2Proof

namespace Sys2Proof.Machine

/-! ### The value of a register (10_state.md R20, R21) -/

theorem limbsValue_replicate_zero (n : Nat) : limbsValue (List.replicate n 0#32) = 0 := by
  induction n with
  | zero => rfl
  | succ n ih => simp [List.replicate_succ, limbsValue, ih]

theorem limbsValue_eq_sum (ls : List Limb) :
    limbsValue ls = ∑ j ∈ Finset.range ls.length, ((ls[j]?).getD 0).toNat * 2 ^ (32 * j) := by
  induction ls with
  | nil => rfl
  | cons l ls ih =>
    have shift (j : Nat) : 2 ^ 32 * (((ls[j]?).getD 0).toNat * 2 ^ (32 * j)) =
        (((l :: ls)[j + 1]?).getD 0).toNat * 2 ^ (32 * (j + 1)) := by
      rw [List.getElem?_cons_succ, Nat.mul_add_one, pow_add, Nat.mul_left_comm, Nat.mul_comm (2 ^ 32)]
    rw [List.length_cons, Finset.sum_range_succ', limbsValue, ih, Finset.mul_sum, Nat.add_comm l.toNat,
      Finset.sum_congr rfl fun j _ => shift j]
    simp

/-- Settles O6: the magnitude is the sum of the limbs (`limbsValue_eq_sum`), and SIGN gives its sign. -/
theorem registerValueIsSignedLimbSum : Obligations.RegisterValueIsSignedLimbSum := by
  intro s r h
  rw [← h, ← limbsValue_eq_sum]
  unfold State.x State.signBit State.magnitude
  split <;> simp

/-- Settles O7: the invariant gives whole registers and a latch whose values fit. -/
theorem registersAndOperandsStayBelowTwoPowW : Obligations.RegistersAndOperandsStayBelowTwoPowW :=
  fun s r h => ⟨x_fits s r (h.limbs r), operand_fits h r⟩

/-! ### Host writes (20_memory.md R52 to R55) -/

theorem stepOn_write_aligned (s : State) {offset : Offset} (h : offset.toNat % 4 = 0) (v : Word) :
    stepOn (.write .w32 offset v) s = .next (s.memWrite offset v) :=
  (stepOn_write s .w32 offset v).trans (hostWrite_legal s h v)

theorem stepOn_write_cmd (s : State) (w : Word) : stepOn (.write .w32 0x014 w) s = .next (s.issue w) :=
  stepOn_write_aligned s rfl w

theorem hostWrite_eq_next {s t : State} {width : Width} {offset : Offset} {v : Word}
    (h : hostWrite width offset v s = .next t) : t = s.memWrite offset v := by
  unfold hostWrite at h
  split at h
  · cases h; rfl
  · cases h

theorem writeReg_operandWindow_engine (s : State) {r : WindowReg} (h : isOperandWindow r = true) (v : Word) :
    (s.writeReg r v).engine = s.engine := by
  cases r with
  | limb i j => rfl
  | sign => rfl
  | pgcap => rfl
  | _ => simp [isOperandWindow] at h

/-! ### STATUS (10_state.md R34, 60_exceptions.md R166) -/

theorem statusWord_toNat (s : State) : s.statusWord.toNat =
    s.busy.toNat + 2 * s.done.toNat + 4 * s.err.toNat + 8 * s.cmdovr.toNat + 256 * s.errcode.toNat := by
  simp only [State.statusWord, toNat_append_eq_add, BitVec.toNat_ofBool]
  simp
  omega

theorem busy_iff (s : State) : s.busy = true ↔ ∃ l, s.engine = .busy l := by
  cases h : s.engine <;> simp [State.busy, h]

theorem errcode_of_err_eq_false {s : State} (h : s.err = false) : s.errcode = 0 := by
  have hn : s.error = none := by simpa [State.err] using h
  simp [State.errcode, hn]

theorem acknowledge_err (s : State) (v : Word) : (s.acknowledge v).err = (s.err && !v.getLsbD 2) := by
  simp only [State.err, acknowledge_error]
  cases v.getLsbD 2 <;> simp

theorem acknowledge_errcode (s : State) (v : Word) :
    (s.acknowledge v).errcode = if v.getLsbD 2 then 0 else s.errcode := by
  simp only [State.errcode, acknowledge_error]
  cases v.getLsbD 2 <;> simp

/-- Settles O57: STATUS is read field by field, and its write is `State.acknowledge`. -/
theorem statusReadsItsFieldsAndClearsByOne : Obligations.StatusReadsItsFieldsAndClearsByOne := fun s v =>
  ⟨statusWord_toNat s, busy_iff s, errcode_of_err_eq_false, s.acknowledge v, stepOn_write_aligned s rfl v, rfl,
    acknowledge_err s v, rfl, acknowledge_errcode s v, rfl⟩

/-! ### The reset table (10_state.md R41) -/

/-- The reset table holds for every parameter value, whatever stands outside the NTE. -/
theorem resetWith_atReset (p : Config.Params) (port : Port) (inputs : List Input) (lastRead : Option Word) :
    AtReset { State.resetWith p with port := port, inputs := inputs, lastRead := lastRead } where
  limbs r := by simp [State.resetWith]
  signs r := by simp [State.resetWith, State.signBit]
  values r := by simp [State.resetWith, State.x, State.magnitude, limbsValue_replicate_zero]
  idle := rfl
  candidates := rfl
  ie := rfl
  status := BitVec.eq_of_toNat_eq ((statusWord_toNat _).trans rfl)
  errcmd := rfl
  pgcap := rfl
  id := rfl
  param := rfl
  pglen := rfl
  irq := rfl

theorem resetNte_atReset (s : State) : AtReset s.resetNte := resetWith_atReset _ _ _ _

theorem reference_meets_constraints : Config.reference.Valid := by decide

/-- Settles O9, as the case of the reference parameters. -/
theorem resetStateIsTheTable : Obligations.ResetStateIsTheTable := resetWith_atReset _ _ _ _

/-- Settles O12: the reference parameters meet the constraints of 00_scope.md R7. -/
theorem resetMeetsTheInvariant : Obligations.ResetMeetsTheInvariant := resetWith_inv reference_meets_constraints

/-! ### CTRL, PGCAP and the read-only registers (10_state.md R30 to R33, R37) -/

theorem memWrite_ctrl (s : State) (v : Word) : s.memWrite 0x00C v = s.writeCtrl v := rfl

theorem ctrlWord_toNat (s : State) : s.ctrlWord.toNat = s.ie.toNat := by
  rw [State.ctrlWord, toNat_append_eq_add]
  simp

/-- Settles O56: a CTRL write is `State.writeCtrl`, and its reset reaches the table of R41. -/
theorem controlWritesStoreIeOrReset : Obligations.ControlWritesStoreIeOrReset := by
  intro s v
  have write := (stepOn_write_aligned s (offset := 0x00C) rfl v).trans (congrArg _ (memWrite_ctrl s v))
  refine ⟨ctrlWord_toNat s, fun hv => ?_, fun hv => ?_⟩
  · exact ⟨s.resetNte, write.trans (congrArg _ (if_pos hv)), resetNte_atReset s⟩
  · exact ⟨{ s with ie := v.getLsbD 0 }, write.trans (congrArg _ (if_neg (by simp only [hv]; decide))), rfl, rfl⟩

/-- Settles O58: the write reaches the field PGCAP and not the latch. -/
theorem pgcapIsStoredAndLatched : Obligations.PgcapIsStoredAndLatched := by
  intro s v
  refine ⟨rfl, { s with pgcap := v }, stepOn_write_aligned s rfl v, rfl, rfl, fun l hl => ?_⟩
  simp [State.capInForce, hl]

theorem paramWord_toNat {p : Config.Params} (h : p.Valid) : (paramWord p).toNat = 16 * 2 ^ 16 + p.nlimb := by
  obtain ⟨-, hn, -, -⟩ := h
  simp only [paramWord, toNat_append_eq_add, Config.nreg]
  simp
  omega

theorem pglenWord_toNat {p : Config.Params} (h : p.Valid) : (pglenWord p).toNat = p.pgLen := by
  obtain ⟨-, -, -, hl⟩ := h
  simp only [pglenWord, toNat_append_eq_add]
  simp
  omega

/-- Settles O55: the words come from the parameters, which no write and no reset changes. -/
theorem readOnlyRegistersIgnoreWrites : Obligations.ReadOnlyRegistersIgnoreWrites := by
  intro s h
  refine ⟨rfl, paramWord_toNat h.params, pglenWord_toNat h.params, rfl, fun v => ?_, ?_⟩
  · exact ⟨stepOn_write_aligned s rfl v, stepOn_write_aligned s rfl v, stepOn_write_aligned s rfl v,
      stepOn_write_aligned s rfl v⟩
  · exact ⟨s.resetNte, stepOn_reset s, rfl, rfl, rfl⟩

/-! ### Acceptance and the latch (10_state.md R26) -/

/-- A latched register gives the value of the latch, whatever the registers hold now. -/
theorem operand_latched {s t : State} {l : Latch} {r : Reg} (hs : s.engine = .busy l) (ht : t.engine = .busy l)
    (hr : r ∈ l.sources.map Prod.fst) : t.operand r = s.operand r := by
  obtain ⟨v, hv⟩ : ∃ v, l.sources.lookup r = some v := by
    rw [← Option.isSome_iff_exists, List.lookup_isSome_iff]
    simpa using hr
  simp [State.operand, hs, ht, hv]

/-- Settles O16: one clause for each answer of an idle CMD write; then a host write that leaves the engine alone leaves
the latched inputs alone (`operand_latched`). -/
theorem acceptanceLatchesTheCommand : Obligations.AcceptanceLatchesTheCommand := by
  refine ⟨fun s w hi => ⟨fun e hd => ?_, fun i hd hw => ?_, fun i hd hw => ?_⟩, fun s t l offset v hb ho ht => ?_⟩
  · exact ⟨_, (stepOn_write_cmd s w).trans (congrArg _ (issue_illegal hi hd)), raise_endedWith s .illegal w⟩
  · exact ⟨_, (stepOn_write_cmd s w).trans (congrArg _ (issue_coinciding hi hd hw)), raise_endedWith s .operand w⟩
  · exact ⟨_, s.latchOf w (sourcesOf i), (stepOn_write_cmd s w).trans (congrArg _ (issue_accepted hi hd hw)), rfl, rfl,
      rfl, fun r hr => lookup_map_self s.x hr, rfl, rfl, rfl, rfl, rfl, fun r => ⟨rfl, rfl⟩, rfl, rfl,
      ⟨rfl, rfl, rfl, rfl, rfl, rfl⟩⟩
  · have write := hostWrite_eq_next ((stepOn_write s _ _ _).symm.trans ht)
    have kept : t.engine = .busy l := by rw [write, State.memWrite, writeReg_operandWindow_engine s ho, hb]
    exact ⟨by simp [State.capInForce, kept, hb], fun r hr => operand_latched hb kept hr⟩

/-- Settles O15: the placed word is an acceptance of it with the engine's turn next. -/
theorem placedWordRunsAtTheNextStep : Obligations.PlacedWordRunsAtTheNextStep := by
  intro s w i hw ht
  have hd := decode_of_decodeTableWord ht
  have hs : sourcesOfWord (BitVec.ofNat 32 w) = sourcesOf i := by simp [sourcesOfWord, hd]
  have turn : step (s.withFetchWord 32 w) = stepOn .engineTurn (s.accept (BitVec.ofNat 32 w) (sourcesOf i)) := by
    rw [State.withFetchWord, Nat.mod_eq_of_lt hw, hs]; rfl
  refine ⟨s.accept (BitVec.ofNat 32 w) (sourcesOf i), ?_, rfl, rfl, rfl, rfl, rfl, rfl, rfl, rfl,
    fun r hr => operand_accept s _ hr⟩
  exact turn.trans ((stepOn_eq _ _).trans (engineTurn_busy rfl hd))

/-! ### The frame of a command (10_state.md R27) -/

/-- What every end of a command leaves as it was. -/
theorem ended_frame {i : Instr} {s t : State} {k : Nat} {p : Port}
    (h : Ended i s { s with candidates := k, port := p } t) :
    SameControls s t ∧ (∀ r, r ∉ destsOf i → SameReg s t r) ∧ (t.err = false → t.errcmd = s.errcmd) ∧
      t.port = p ∧ t.candidates = k := by
  cases h with
  | committed ws dests _ eq =>
    subst eq
    refine ⟨⟨by simp, by simp, by simp, by simp, by simp, by simp⟩, fun r hr => ?_, fun _ => by simp, by simp, by simp⟩
    have kept := writeAll_other { s with candidates := k, port := p } ws (dests ▸ hr)
    exact ⟨kept.limbs, kept.sign⟩
  | failed code _ eq =>
    subst eq
    exact ⟨⟨rfl, rfl, rfl, rfl, rfl, rfl⟩, fun r _ => ⟨rfl, rfl⟩, nofun, rfl, rfl⟩
  | goesOn rd _ _ eq =>
    subst eq
    exact ⟨⟨rfl, rfl, rfl, rfl, rfl, rfl⟩, fun r _ => ⟨rfl, rfl⟩, fun _ => rfl, rfl, rfl⟩

theorem readReg_unchanged {i : Instr} {s t : State} (hc : SameControls s t)
    (hk : ∀ r, r ∉ destsOf i → SameReg s t r) {r : WindowReg} (h : mayChange i r = false) :
    t.readReg r = s.readReg r := by
  cases r with
  | param => exact congrArg paramWord hc.params
  | pglen => exact congrArg pglenWord hc.params
  | ctrl => simp only [State.readReg, State.ctrlWord, hc.ie]
  | pgcap => exact hc.pgcap
  | limb r j =>
    have kept := hk r (by simpa [mayChange] using h)
    simp only [State.readReg, kept.limbs]
  | status | errcmd | sign => simp [mayChange] at h
  | id | cmd | reserved => rfl

/-- Settles O48: the frame holds of each of the three ends, and the window shows nothing else. -/
theorem commandsChangeNothingElse : Obligations.CommandsChangeNothingElse := by
  intro i s t ht
  obtain ⟨k, p, t', he, draws, counts, -, ended⟩ := exec_cases i s
  cases he.symm.trans ht
  obtain ⟨controls, kept, errcmd, rfl, rfl⟩ := ended_frame ended
  refine ⟨controls, kept, errcmd, draws, counts, fun offset h => ?_⟩
  rw [State.memRead, State.memRead, controls.params]
  exact readReg_unchanged controls kept h

/-! ### The turn of a command (10_state.md R26, 00_scope.md R11) -/

/-- What the engine step of a command works out before its end: the candidate count and the port it leaves, and what
its pseudocode ended with, nothing where PRIMEGEN goes on (10_state.md R27, R28). -/
structure Turn where
  candidates : Nat
  port : Port
  result : Option (Except ErrorCode (List (Reg × Int)))

/-- The turn of a command that neither draws nor counts. -/
def State.plainTurn (s : State) (result : Except ErrorCode (List (Reg × Int))) : Turn :=
  { candidates := s.candidates, port := s.port, result := some result }

/-- The turn of every command; `exec_eq_endTurn` ties it to `exec`. -/
def State.turn (s : State) : Instr → Turn
  | .add rd rs1 rs2 => s.plainTurn (stageFitting s rd (s.operand rs1 + s.operand rs2))
  | .sub rd rs1 rs2 => s.plainTurn (stageFitting s rd (s.operand rs1 - s.operand rs2))
  | .mul rd rs1 rs2 => s.plainTurn (stageFitting s rd (s.operand rs1 * s.operand rs2))
  | .divmod rd rd2 rs1 rs2 => s.plainTurn (divmodResult rd rd2 (s.operand rs1) (s.operand rs2))
  | .cmp rd rs1 rs2 => s.plainTurn (.ok [(rd, compare3 (s.operand rs1) (s.operand rs2))])
  | .mov rd rs1 => s.plainTurn (.ok [(rd, s.operand rs1)])
  | .ldi rd imm16 => s.plainTurn (.ok [(rd, (immValue imm16 : Int))])
  | .modmul rd rs1 rs2 rs3 => s.plainTurn (modmulResult rd (s.operand rs1) (s.operand rs2) (s.operand rs3))
  | .modexp rd rs1 rs2 rs3 => s.plainTurn (modexpResult rd (s.operand rs1) (s.operand rs2) (s.operand rs3))
  | .mrtest rd rs1 imm16 =>
    let ending := mrtestResult rd (s.operand rs1) (immValue imm16) s.port
    { candidates := s.candidates, port := ending.2, result := some ending.1 }
  | .primegen rd =>
    let drawn := candidate s.params.pgLen s.port
    let tested := mr drawn.1 Config.pgRounds drawn.2
    let k := s.candidatesSoFar + 1
    { candidates := k
      port := tested.2
      result :=
        if tested.1 then some (.ok [(rd, (drawn.1 : Int))])
        else if s.capInForce ≠ 0 ∧ k = s.capInForce.toNat then some (.error .pgCap)
        else none }
  | .egcd rd rd2 rd3 rs1 rs2 => s.plainTurn (egcdResult rd rd2 rd3 (s.operand rs1) (s.operand rs2))
  | .modinv rd rs1 rs2 => s.plainTurn (modinvResult rd (s.operand rs1) (s.operand rs2))

/-- The state a turn of command `i` leaves: the commit step of its result, or the command still in progress. -/
def State.endTurn (s : State) (i : Instr) (u : Turn) : State :=
  let s' := { s with candidates := u.candidates, port := u.port }
  match u.result with
  | some result => s'.finish i result
  | none => { s' with engine := .busy (s.latchInForce i), done := false, error := none }

/-- Every engine step is its turn and the end of that turn. -/
theorem exec_eq_endTurn (i : Instr) (s : State) : exec i s = .next (s.endTurn i (s.turn i)) := by
  cases i with
  | primegen rd =>
    refine congrArg Host.Outcome.next ?_
    simp only [State.nextCandidate, State.turn, State.endTurn]
    split_ifs <;> rfl
  | _ => rfl

theorem endTurn_ok (s : State) (i : Instr) {u : Turn} {ws : List (Reg × Int)} (h : u.result = some (.ok ws)) :
    s.endTurn i u = { s with candidates := u.candidates, port := u.port }.complete ws := by
  simp [State.endTurn, h]

theorem endTurn_error (s : State) (i : Instr) {u : Turn} {c : ErrorCode} (h : u.result = some (.error c)) :
    s.endTurn i u = { s with candidates := u.candidates, port := u.port }.raise c (s.commandWord i) := by
  simp [State.endTurn, h, State.commandWord]

theorem endTurn_goesOn (s : State) (i : Instr) {u : Turn} (h : u.result = none) :
    s.endTurn i u = { s with candidates := u.candidates, port := u.port, engine := .busy (s.latchInForce i),
                             done := false, error := none } := by
  simp [State.endTurn, h]

/-- The turn reads the state through the command's operands, the cap in force, `k`, the parameters and the port
only. -/
theorem turn_congr {i : Instr} {s s' : State} (params : s'.params = s.params) (port : s'.port = s.port)
    (candidates : s'.candidates = s.candidates) (count : s'.candidatesSoFar = s.candidatesSoFar)
    (cap : s'.capInForce = s.capInForce) (operands : ∀ r ∈ sourcesOf i, s'.operand r = s.operand r) :
    s'.turn i = s.turn i := by
  have stage (rd : Reg) (v : Int) : stageFitting s' rd v = stageFitting s rd v := by
    simp only [stageFitting, State.Fits, params]
  have plain (result : Except ErrorCode (List (Reg × Int))) : s'.plainTurn result = s.plainTurn result := by
    simp only [State.plainTurn, port, candidates]
  cases i with
  | primegen rd => simp only [State.turn, params, port, count, cap]
  | mrtest rd rs1 imm16 => simp only [State.turn, port, candidates, operands rs1 (by simp [sourcesOf])]
  | ldi rd imm16 => exact plain _
  | _ =>
    simp only [sourcesOf, List.forall_mem_cons] at operands
    simp only [State.turn, stage, plain, operands]

/-- What a turn ends with stages one write per destination or is an error the command may report. -/
theorem turn_resultOf {i : Instr} {s : State} {result : Except ErrorCode (List (Reg × Int))}
    (h : (s.turn i).result = some result) : ResultOf i result := by
  cases i with
  | add rd rs1 rs2 => cases h; exact stageFitting_resultOf s rd _ _ rfl rfl rfl
  | sub rd rs1 rs2 => cases h; exact stageFitting_resultOf s rd _ _ rfl rfl rfl
  | mul rd rs1 rs2 => cases h; exact stageFitting_resultOf s rd _ _ rfl rfl rfl
  | divmod rd rd2 rs1 rs2 => cases h; exact divmodResult_resultOf rd rd2 rs1 rs2 _ _
  | modmul rd rs1 rs2 rs3 => cases h; exact modmulResult_resultOf rd rs1 rs2 rs3 _ _ _
  | modexp rd rs1 rs2 rs3 => cases h; exact modexpResult_resultOf rd rs1 rs2 rs3 _ _ _
  | egcd rd rd2 rd3 rs1 rs2 => cases h; exact egcdResult_resultOf rd rd2 rd3 rs1 rs2 _ _
  | modinv rd rs1 rs2 => cases h; exact modinvResult_resultOf rd rs1 rs2 _ _
  | mrtest rd rs1 imm16 => cases h; exact mrtestResult_resultOf rd rs1 imm16 _ _ _
  | cmp | mov | ldi => cases h; exact ⟨rfl, rfl⟩
  | primegen rd =>
    simp only [State.turn] at h
    split_ifs at h
    · cases h; exact ⟨rfl, rfl⟩
    · cases h; rfl

theorem writeX_sameReg {s s' : State} (params : s'.params = s.params) (r : Reg) (v : Int) :
    SameReg (s.writeX r v) (s'.writeX r v) r where
  limbs := by simp [params]
  sign := by simp

/-- What the staged writes leave in a destination depends on them and on NLIMB only. -/
theorem writeAll_sameReg {s s' : State} (params : s'.params = s.params) {ws : List (Reg × Int)} {r : Reg}
    (h : r ∈ ws.map Prod.fst) : SameReg (s.writeAll ws) (s'.writeAll ws) r := by
  induction ws generalizing s s' with
  | nil => simp at h
  | cons w ws ih =>
    by_cases later : r ∈ ws.map Prod.fst
    · exact ih (s := s.writeX w.1 w.2) (s' := s'.writeX w.1 w.2) params later
    · obtain rfl : r = w.1 := by simpa [later] using h
      have kept := writeAll_other (s.writeX w.1 w.2) ws later
      have kept' := writeAll_other (s'.writeX w.1 w.2) ws later
      have written := writeX_sameReg params w.1 w.2
      exact ⟨kept'.limbs.trans (written.limbs.trans kept.limbs.symm),
        kept'.sign.trans (written.sign.trans kept.sign.symm)⟩

/-- Settles O49: the two states have the same turn (`turn_congr`), and its end treats them alike. -/
theorem latchedInputsDecideTheResult : Obligations.LatchedInputsDecideTheResult := by
  intro i s s' t t' l hb hb' hsrc params port candidates ht ht'
  have same : s'.turn i = s.turn i :=
    turn_congr params port candidates (by simp only [State.candidatesSoFar, hb, hb', candidates])
      (by simp only [State.capInForce, hb, hb']) fun r hr => operand_latched hb hb' (hsrc ▸ hr)
  rw [exec_eq_endTurn] at ht ht'
  cases ht
  cases ht'
  rw [same]
  cases h : (s.turn i).result with
  | none =>
    rw [endTurn_goesOn s i h, endTurn_goesOn s' i h]
    have latch : s'.latchInForce i = s.latchInForce i := by simp only [State.latchInForce, hb, hb']
    exact ⟨rfl, congrArg Engine.busy latch, rfl, rfl, rfl, nofun⟩
  | some result =>
    cases result with
    | error c =>
      rw [endTurn_error s i h, endTurn_error s' i h]
      exact ⟨rfl, rfl, rfl, rfl, rfl, nofun⟩
    | ok ws =>
      rw [endTurn_ok s i h, endTurn_ok s' i h]
      obtain ⟨dests, -⟩ := turn_resultOf h
      refine ⟨rfl, rfl, rfl, by simp, by simp, fun _ _ r hr => ?_⟩
      have written := writeAll_sameReg (s := { s with candidates := (s.turn i).candidates, port := (s.turn i).port })
        (s' := { s' with candidates := (s.turn i).candidates, port := (s.turn i).port }) params (dests ▸ hr)
      exact ⟨written.limbs, written.sign⟩

/-! ### Every value a command stages fits (log entry 16) -/

theorem powerLoop_lt {m : Nat} (hm : 0 < m) (passes acc b e : Nat) (h : acc < m) : powerLoop m passes acc b e < m := by
  induction passes generalizing acc b e with
  | zero => exact h
  | succ passes ih =>
    unfold powerLoop
    split
    · exact h
    · apply ih
      split
      · exact Nat.mod_lt _ hm
      · exact h

theorem power_lt {m : Nat} (hm : 0 < m) (base e : Nat) : power base e m < m :=
  powerLoop_lt hm _ _ _ _ (Nat.mod_lt 1 hm)

theorem egcdLoop_zero (depth a : Nat) : egcdLoop depth a 0 = ((a : Int), 1, 0) := by
  cases depth <;> simp [egcdLoop]

/-- The gcd and the coefficients stay within the arguments, at any depth of the descent: where the remainder is 0 the
next level is the base case, and else it is at least the 1 of the bound (43_euclid.md R154). -/
theorem egcdLoop_natAbs_le (depth a b : Nat) :
    (egcdLoop depth a b).1.natAbs ≤ max a b ∧ (egcdLoop depth a b).2.1.natAbs ≤ max 1 b ∧
      (egcdLoop depth a b).2.2.natAbs ≤ max 1 a := by
  induction depth generalizing a b with
  | zero => simp [egcdLoop]
  | succ depth ih =>
    by_cases hb : b = 0
    · simp [egcdLoop, hb]
    have hpos : 0 < b := Nat.pos_of_ne_zero hb
    by_cases hr : a % b = 0
    · simp [egcdLoop, hb, hr, egcdLoop_zero]
    obtain ⟨hg, hx, hy⟩ := ih b (a % b)
    have hmod := Nat.mod_lt a hpos
    simp only [egcdLoop, if_neg hb]
    refine ⟨by omega, by omega, ?_⟩
    set g := egcdLoop depth b (a % b)
    calc (g.2.1 - ((a / b : Nat) : Int) * g.2.2).natAbs
        ≤ g.2.1.natAbs + (((a / b : Nat) : Int) * g.2.2).natAbs := Int.natAbs_sub_le _ _
      _ = g.2.1.natAbs + a / b * g.2.2.natAbs := by rw [Int.natAbs_mul, Int.natAbs_natCast]
      _ ≤ a % b + a / b * b := Nat.add_le_add (by omega) (Nat.mul_le_mul_left _ (by omega))
      _ = a := by rw [Nat.mul_comm]; exact Nat.mod_add_div a b
      _ ≤ max 1 a := le_max_right _ _

theorem bigEndian_lt (bytes : List Byte) : bigEndian bytes < 256 ^ bytes.length := by
  induction bytes using List.reverseRecOn with
  | nil => simp [bigEndian]
  | append_singleton bytes b ih =>
    have hb := b.isLt
    simp only [bigEndian, List.foldl_append, List.foldl_cons, List.foldl_nil, List.length_append,
      List.length_singleton, pow_succ] at ih ⊢
    omega

theorem candidate_lt (length : Nat) (p : Port) : (candidate length p).1 < 2 ^ (8 * length) := by
  have h := bigEndian_lt (forceBytes (drawBytes length p).1)
  rw [pow_mul]
  simpa [forceBytes, drawBytes, candidate] using h

/-- Every write a pseudocode staged fits. -/
def StagesFit (s : State) (result : Except ErrorCode (List (Reg × Int))) : Prop :=
  match result with
  | .ok ws => ∀ w ∈ ws, s.Fits w.2
  | .error _ => True

section
variable {s : State}

theorem stagesFit_one {rd : Reg} {v : Int} (h : s.Fits v) : StagesFit s (.ok [(rd, v)]) :=
  List.forall_mem_singleton.2 h

/-- A register has at least one limb, so a value of 32 bits fits. -/
theorem fits_of_lt (h : s.Inv) {v : Int} (hv : v.natAbs < 2 ^ 32) : s.Fits v := by
  obtain ⟨hn, -⟩ := h.params
  exact hv.trans_le (Nat.pow_le_pow_right two_pos (by show 32 ≤ 32 * s.params.nlimb; omega))

theorem fits_emod {m : Int} (hm : m ≠ 0) (v : Int) (h : s.Fits m) : s.Fits (v % m) := by
  have nonneg := Int.emod_nonneg v hm
  have lt := Int.emod_lt v hm
  exact lt_trans (by omega) h

theorem stageFitting_stagesFit (rd : Reg) (v : Int) : StagesFit s (stageFitting s rd v) := by
  unfold stageFitting
  split_ifs with h
  · exact stagesFit_one h
  · trivial

theorem divmodResult_stagesFit (rd rd2 : Reg) {a b : Int} (ha : s.Fits a) (hb : s.Fits b) :
    StagesFit s (divmodResult rd rd2 a b) := by
  unfold divmodResult
  split_ifs with _ _ _ hne
  case neg =>
    exact List.forall_mem_cons.2 ⟨(Int.natAbs_ediv_le_natAbs a b).trans_lt ha, stagesFit_one (fits_emod hne a hb)⟩
  all_goals trivial

theorem compare3_natAbs_le (a b : Int) : (compare3 a b).natAbs ≤ 1 := by
  unfold compare3
  split_ifs <;> decide

theorem modmulResult_stagesFit (rd : Reg) (a b : Int) {m : Int} (hm : s.Fits m) :
    StagesFit s (modmulResult rd a b m) := by
  unfold modmulResult
  split_ifs with _ _ _ hne
  case neg => exact stagesFit_one (fits_emod hne _ hm)
  all_goals trivial

theorem modexpResult_stagesFit (rd : Reg) (a e : Int) {m : Int} (hm : s.Fits m) :
    StagesFit s (modexpResult rd a e m) := by
  unfold modexpResult
  split_ifs
  case neg =>
    have below := power_lt (m := m.toNat) (by omega) a.toNat e.toNat
    exact stagesFit_one (lt_trans (by omega) hm)
  all_goals trivial

theorem mrtestResult_stagesFit (h : s.Inv) (rd : Reg) (n : Int) (rounds : Nat) (p : Port) :
    StagesFit s (mrtestResult rd n rounds p).1 := by
  unfold mrtestResult
  split_ifs
  · trivial
  · exact stagesFit_one (fits_of_lt h (by decide))
  · trivial
  · exact stagesFit_one (fits_of_lt h (by split <;> decide))

theorem egcdResult_stagesFit (h : s.Inv) (rd rd2 rd3 : Reg) {a b : Int} (ha : s.Fits a) (hb : s.Fits b) :
    StagesFit s (egcdResult rd rd2 rd3 a b) := by
  have one := fits_of_lt h (v := 1) (by decide)
  obtain ⟨hg, hx, hy⟩ := egcdLoop_natAbs_le (b.toNat + 1) a.toNat b.toNat
  have within {v u w : Int} (hv : v.natAbs ≤ max u.natAbs w.natAbs) (hu : s.Fits u) (hw : s.Fits w) : s.Fits v :=
    hv.trans_lt (max_lt hu hw)
  unfold egcdResult
  split_ifs
  case neg =>
    exact List.forall_mem_cons.2 ⟨within (hg.trans (by omega)) ha hb, List.forall_mem_cons.2
      ⟨within (hx.trans (by omega)) one hb, stagesFit_one (within (hy.trans (by omega)) one ha)⟩⟩
  all_goals trivial

theorem modinvResult_stagesFit (rd : Reg) (a : Int) {m : Int} (hm : s.Fits m) :
    StagesFit s (modinvResult rd a m) := by
  unfold modinvResult
  split_ifs with _ _ hne
  case neg =>
    dsimp only
    split_ifs
    · trivial
    · exact stagesFit_one (fits_emod hne _ hm)
  all_goals trivial

theorem candidate_fits (h : s.Inv) : s.Fits ((candidate s.params.pgLen s.port).1 : Int) := by
  obtain ⟨-, -, -, hl⟩ := h.params
  have hw : 8 * s.params.pgLen ≤ s.params.width := by omega
  exact (candidate_lt _ _).trans_le (Nat.pow_le_pow_right two_pos hw)

/-- Every value a command commits is below `2^W` in magnitude (log entry 16). -/
theorem turn_stagesFit (h : s.Inv) {i : Instr} {result : Except ErrorCode (List (Reg × Int))}
    (hr : (s.turn i).result = some result) : StagesFit s result := by
  cases i with
  | add rd rs1 rs2 => cases hr; exact stageFitting_stagesFit rd _
  | sub rd rs1 rs2 => cases hr; exact stageFitting_stagesFit rd _
  | mul rd rs1 rs2 => cases hr; exact stageFitting_stagesFit rd _
  | divmod rd rd2 rs1 rs2 => cases hr; exact divmodResult_stagesFit rd rd2 (operand_fits h rs1) (operand_fits h rs2)
  | cmp rd rs1 rs2 => cases hr; exact stagesFit_one (fits_of_lt h ((compare3_natAbs_le _ _).trans_lt (by decide)))
  | mov rd rs1 => cases hr; exact stagesFit_one (operand_fits h rs1)
  | ldi rd imm16 => cases hr; exact stagesFit_one (fits_of_lt h (imm16.setWidth 32).isLt)
  | modmul rd rs1 rs2 rs3 => cases hr; exact modmulResult_stagesFit rd _ _ (operand_fits h rs3)
  | modexp rd rs1 rs2 rs3 => cases hr; exact modexpResult_stagesFit rd _ _ (operand_fits h rs3)
  | mrtest rd rs1 imm16 => cases hr; exact mrtestResult_stagesFit h rd _ _ _
  | egcd rd rd2 rd3 rs1 rs2 =>
    cases hr; exact egcdResult_stagesFit h rd rd2 rd3 (operand_fits h rs1) (operand_fits h rs2)
  | modinv rd rs1 rs2 => cases hr; exact modinvResult_stagesFit rd _ (operand_fits h rs2)
  | primegen rd =>
    simp only [State.turn] at hr
    split_ifs at hr
    · cases hr; exact stagesFit_one (candidate_fits h)
    · cases hr; trivial

end

theorem destsOf_nodup {i : Instr} (h : i.wf = true) : (destsOf i).Nodup := by
  have hc := coincidingDests_eq i
  simpa [coincidingDests, h] using hc

/-- The draws and the candidate count of a turn are no part of what `Committed` compares. -/
theorem committed_of_turn {s t : State} {k : Nat} {p : Port} {ws : List (Reg × Int)}
    (h : Committed { s with candidates := k, port := p } t ws p) : Committed s t ws t.port where
  idle := h.idle
  done := h.done
  noError := h.noError
  written := h.written
  kept r hr := ⟨(h.kept r hr).limbs, (h.kept r hr).sign⟩
  errcmd := h.errcmd
  controls := ⟨h.controls.params, h.controls.ie, h.controls.cmdovr, h.controls.pgcap, h.controls.inputs,
    h.controls.lastRead⟩
  port := rfl

/-- A command that ends without an error committed one value to each of its destinations. -/
theorem exec_committed {i : Instr} {s t : State} (h : s.Inv) (ht : exec i s = .next t) (idle : t.busy = false)
    (noError : t.error = none) : ∃ ws, ws.map Prod.fst = destsOf i ∧ Committed s t ws t.port := by
  rw [exec_eq_endTurn] at ht
  cases ht
  cases hr : (s.turn i).result with
  | none => rw [endTurn_goesOn s i hr] at idle; cases idle
  | some result =>
    cases result with
    | error c => rw [endTurn_error s i hr] at noError; cases noError
    | ok ws =>
      obtain ⟨dests, wf⟩ := turn_resultOf hr
      rw [endTurn_ok s i hr]
      exact ⟨ws, dests, committed_of_turn
        (complete_committed _ ws (dests ▸ destsOf_nodup wf) (turn_stagesFit h hr))⟩

/-! ### SIGN -/

theorem memRead_sign_getLsbD (s : State) (r : Reg) : (s.memRead 0x020).getLsbD r.val = s.signBit r := by
  show ((0 : BitVec 16) ++ s.sign).getLsbD r.val = s.sign.getLsbD r.val
  rw [BitVec.getLsbD_append, if_pos r.isLt]

/-- Settles O8: what a command stages fits, so its destinations hold it with a normalised sign (`exec_committed`). -/
theorem zeroAndSignAreNormalisedByCommands : Obligations.ZeroAndSignAreNormalisedByCommands := by
  refine ⟨fun s r h => ?_, fun i s t r h _ ht idle noError hr => ?_, fun s v => ?_⟩
  · exact Int.natAbs_eq_zero.1 ((x_natAbs s r).trans h)
  · obtain ⟨ws, dests, committed⟩ := exec_committed h ht idle noError
    obtain ⟨w, hw, rfl⟩ := List.mem_map.1 (dests ▸ hr)
    obtain ⟨value, sign⟩ := committed.written w hw
    rw [memRead_sign_getLsbD, value]
    exact ⟨sign, value ▸ (x_natAbs t w.1).symm, sign⟩
  · refine ⟨{ s with sign := v.extractLsb' 0 16 }, stepOn_write_aligned s rfl v, zero_append_extract_eq_and v,
      fun r => ?_, rfl⟩
    simp [State.signBit, r.isLt]

end Sys2Proof.Machine

/-! ## Scope: the register window (20_memory.md)

Which host accesses the bus carries (R53 to R55), what a read changes (R60), the limb region (R57), and the reserved
offsets and bits (R59). -/

namespace Sys2Proof.Machine

/-! ### Legal and illegal accesses (20_memory.md R53 to R55) -/

theorem legalAccess_eq_false_iff (width : Width) (offset : Offset) :
    legalAccess width offset = false ↔ width ≠ .w32 ∨ offset.toNat % 4 ≠ 0 := by
  simp [legalAccess, imp_iff_not_or]

theorem hostRead_illegal (s : State) {width : Width} {offset : Offset} (h : legalAccess width offset = false) :
    hostRead width offset s = .fault .busError := by
  simp [hostRead, h]

theorem hostWrite_illegal (s : State) {width : Width} {offset : Offset} (h : legalAccess width offset = false)
    (v : Word) : hostWrite width offset v s = .fault .busError := by
  simp [hostWrite, h]

theorem stepOn_read_aligned (s : State) {offset : Offset} (h : offset.toNat % 4 = 0) :
    stepOn (.read .w32 offset) s = .next { s with lastRead := some (s.memRead offset) } :=
  (stepOn_read s .w32 offset).trans (hostRead_legal s h)

/-- Settles O51: the bus carries exactly the legal accesses (`legalAccess_eq_false_iff`). -/
theorem illegalAccessesAreBusErrors : Obligations.IllegalAccessesAreBusErrors := by
  intro s width offset v
  refine ⟨fun h => ?_, fun hw ha => ?_⟩
  · have illegal := (legalAccess_eq_false_iff width offset).2 h
    exact ⟨hostRead_illegal s illegal, hostWrite_illegal s illegal v⟩
  · subst hw
    exact ⟨⟨_, stepOn_read_aligned s ha⟩, ⟨_, stepOn_write_aligned s ha v⟩⟩

/-- Settles O52: the word last read is no part of what the window shows. -/
theorem hostReadsHaveNoSideEffect : Obligations.HostReadsHaveNoSideEffect :=
  fun s _ h => ⟨_, stepOn_read_aligned s h, rfl, rfl, fun _ => rfl⟩

/-! ### What stops a step -/

theorem engineTurn_next (s : State) : ∃ t, engineTurn s = .next t := by
  unfold engineTurn
  cases s.fetch with
  | idle => exact ⟨s, rfl⟩
  | command i =>
    obtain ⟨_, _, t, he, -⟩ := exec_cases i s
    exact ⟨t, he⟩
  | illegal w => exact ⟨s.raise .illegal w, rfl⟩

/-- `e` is a host access that the bus does not carry. -/
def IllegalInput (e : Input) : Prop :=
  ∃ width offset, (e = .read width offset ∨ ∃ v, e = .write width offset v) ∧
    (width ≠ .w32 ∨ offset.toNat % 4 ≠ 0)

/-- An event either leads to a next state or is an illegal host access, which is a bus error. -/
theorem runInput_cases (e : Input) (s : State) :
    (∃ t, runInput e s = .next t) ∨ (runInput e s = .fault .busError ∧ IllegalInput e) := by
  cases e with
  | read width offset =>
    cases h : legalAccess width offset with
    | true => exact .inl ⟨_, if_pos h⟩
    | false =>
      exact .inr ⟨hostRead_illegal s h, width, offset, .inl rfl, (legalAccess_eq_false_iff width offset).1 h⟩
  | write width offset v =>
    cases h : legalAccess width offset with
    | true => exact .inl ⟨_, if_pos h⟩
    | false =>
      exact .inr ⟨hostWrite_illegal s h v, width, offset, .inr ⟨v, rfl⟩, (legalAccess_eq_false_iff width offset).1 h⟩
  | resetPin => exact .inl ⟨s.resetNte, rfl⟩
  | engineTurn => exact .inl (engineTurn_next s)

/-- Settles O22: with no event listed the engine has the turn, which never stops; a listed event stops only as an
illegal host access (`runInput_cases`). -/
theorem stepsStopOnlyOnBusErrors : Obligations.StepsStopOnlyOnBusErrors := by
  intro s
  unfold SafeStep
  cases hi : s.inputs with
  | nil => exact .inl (step_no_input hi ▸ engineTurn_next s)
  | cons e es =>
    have hs : step s = runInput e { s with inputs := es } := by simp only [step, State.takeInput, hi]
    rw [hs]
    exact (runInput_cases e { s with inputs := es }).imp_right fun ⟨fault, illegal⟩ => ⟨fault, e, es, rfl, illegal⟩

/-! ### The limb region (20_memory.md R57) -/

/-- Limb `j` carries bits `32·j` to `32·j + 31` of the value of the limbs, and 0 past their end. -/
theorem limb_toNat (ls : List Limb) (j : Nat) :
    ((ls[j]?).getD 0).toNat = limbsValue ls / 2 ^ (32 * j) % 2 ^ 32 := by
  induction ls generalizing j with
  | nil => simp [limbsValue]
  | cons l ls ih =>
    have hl := l.isLt
    cases j with
    | zero => simp [limbsValue, Nat.mod_eq_of_lt hl]
    | succ j =>
      have tail : limbsValue (l :: ls) / 2 ^ 32 = limbsValue ls := by simp only [limbsValue]; omega
      rw [List.getElem?_cons_succ, ih, Nat.mul_succ, Nat.add_comm, pow_add, ← Nat.div_div_eq_div_mul, tail]

/-- The limb region lies in the window: NLIMB is at most 960 (00_scope.md R7). -/
theorem limbOffset_lt {p : Config.Params} (hp : p.Valid) (i : Reg) {j : Nat} (hj : j < p.nlimb) :
    limbOffset p i j < 2 ^ 16 := by
  obtain ⟨-, hn, -, -⟩ := hp
  have hi : p.nlimb * i.val ≤ p.nlimb * 15 := Nat.mul_le_mul_left _ (Nat.le_of_lt_succ i.isLt)
  rw [limbOffset, limbBase, Nat.mul_assoc]
  omega

theorem limbOffset_aligned (p : Config.Params) (i : Reg) (j : Nat) : limbOffset p i j % 4 = 0 := by
  rw [limbOffset, limbBase, Nat.mul_assoc]
  omega

/-- No other aligned offset shows the limb: the converse of `windowReg_limbOffset`. -/
theorem eq_limbOffset_of_windowReg {p : Config.Params} {n : Nat} {i : Reg} {j : Nat} (aligned : n % 4 = 0)
    (h : windowReg p n = .limb i j) : n = limbOffset p i j := by
  have hb : limbBase ≤ n := by
    by_contra below
    unfold windowReg at h
    split at h
    case h_10 => simp [Nat.lt_of_not_le below] at h
    all_goals cases h
  rw [windowReg_limbRegion p hb, limbAt] at h
  split_ifs at h
  cases h
  have split := Nat.div_add_mod ((n - limbBase) / 4) p.nlimb
  rw [limbOffset, Nat.mul_assoc]
  simp only [limbBase] at hb split ⊢
  omega

theorem writeReg_limb_self (s : State) (i : Reg) (j : Nat) (v : Word) :
    (s.writeReg (.limb i j) v).limbs[i] = s.limbs[i].set j v := by
  simp [State.writeReg]

theorem writeReg_limb_other (s : State) {i r : Reg} (j : Nat) (v : Word) (h : r ≠ i) :
    SameReg s (s.writeReg (.limb i j) v) r where
  limbs := by
    have hne : i.val ≠ r.val := fun e => h (Fin.ext e.symm)
    simp [State.writeReg, hne]
  sign := rfl

/-- A limb write changes no other register of the window. -/
theorem readReg_writeReg_limb_other (s : State) {i : Reg} {j : Nat} (v : Word) {r : WindowReg} (h : r ≠ .limb i j) :
    (s.writeReg (.limb i j) v).readReg r = s.readReg r := by
  cases r with
  | limb i' j' =>
    by_cases hi : i' = i
    · subst hi
      have hj : j ≠ j' := fun e => h (e ▸ rfl)
      simp only [State.readReg, writeReg_limb_self, List.getElem?_set_ne hj]
    · simp only [State.readReg, (writeReg_limb_other s j v hi).limbs]
  | _ => rfl

/-- Settles O53: the offset selects the limb (`windowReg_limbOffset`) and no other aligned offset does
(`eq_limbOffset_of_windowReg`). -/
theorem limbsAreReadAndWrittenAtTheirOffsets : Obligations.LimbsAreReadAndWrittenAtTheirOffsets := by
  intro s i j h hj
  have length := h.limbs i
  obtain ⟨offset, ho⟩ : ∃ offset : Offset, offset.toNat = limbOffset s.params i j :=
    ⟨BitVec.ofNat 16 _, Nat.mod_eq_of_lt (limbOffset_lt h.params i hj)⟩
  have selects : windowReg s.params offset.toNat = .limb i j := by rw [ho, windowReg_limbOffset _ _ hj]
  have aligned : offset.toNat % 4 = 0 := by rw [ho, limbOffset_aligned]
  have read : s.memRead offset = (s.limbs[i][j]?).getD 0 := by rw [State.memRead, selects, State.readReg]
  refine ⟨offset, ho, ?_, ?_, fun v => ?_⟩
  · rw [read, List.getElem?_eq_getElem (length ▸ hj), Option.getD_some]
  · rw [read, x_natAbs, limb_toNat, State.magnitude]
  · have written : (s.writeReg (.limb i j) v).limbs[i][j]? = some v := by
      rw [writeReg_limb_self, List.getElem?_set_self (length ▸ hj)]
    refine ⟨s.writeReg (.limb i j) v, ?_, written, ?_, rfl, rfl, rfl, fun r hr => writeReg_limb_other s j v hr, rfl,
      fun offset' ha hne => ?_⟩
    · rw [stepOn_write_aligned s aligned, State.memWrite, selects]
    · show (s.writeReg (.limb i j) v).readReg (windowReg s.params offset.toNat) = v
      rw [selects, State.readReg, written, Option.getD_some]
    · exact readReg_writeReg_limb_other s v fun e =>
        hne (BitVec.eq_of_toNat_eq ((eq_limbOffset_of_windowReg ha e).trans ho.symm))

/-! ### Reserved offsets and bits (20_memory.md R59) -/

theorem limbAt_reserved (p : Config.Params) {n : Nat} (h : limbBase + 64 * p.nlimb ≤ n) : limbAt p n = .reserved := by
  by_cases noLimbs : p.nlimb = 0
  · simp [limbAt, noLimbs]
  · have past : ¬ (n - limbBase) / 4 / p.nlimb < 16 := by
      rw [Nat.div_lt_iff_lt_mul (Nat.pos_of_ne_zero noLimbs)]
      omega
    exact dif_neg past

theorem windowReg_reserved (p : Config.Params) {n : Nat}
    (h : (0x024 ≤ n ∧ n ≤ 0x0FFF) ∨ 0x1000 + 64 * p.nlimb ≤ n) : windowReg p n = .reserved := by
  rcases h with ⟨above, below⟩ | past
  · unfold windowReg
    split
    case h_10 => exact if_pos (Nat.lt_succ_of_le below)
    all_goals simp at above
  · rw [windowReg_limbRegion p (Nat.le_of_add_right_le past), limbAt_reserved p past]

theorem paramWord_reservedBits (p : Config.Params) : paramWord p &&& 0xFF000000 = 0 := by
  show (0#8 ++ _ ++ _ : BitVec (8 + 8 + 16)) &&& (0xFF#8 ++ 0#8 ++ 0#16 : BitVec (8 + 8 + 16)) = 0
  simp only [BitVec.and_append, BitVec.zero_and, BitVec.and_zero]
  rfl

/-- A 16-bit word of the window has no bit in the upper half. -/
theorem halfWord_reservedBits (x : BitVec 16) : ((0 : BitVec 16) ++ x : Word) &&& 0xFFFF0000 = 0 := by
  show (0#16 ++ x : BitVec (16 + 16)) &&& (0xFFFF#16 ++ 0#16 : BitVec (16 + 16)) = 0
  simp only [BitVec.and_append, BitVec.zero_and, BitVec.and_zero]
  rfl

theorem ctrlWord_reservedBits (s : State) : s.ctrlWord &&& 0xFFFFFFFE = 0 := by
  show (0#31 ++ _ : BitVec (31 + 1)) &&& (0x7FFFFFFF#31 ++ 0#1 : BitVec (31 + 1)) = 0
  simp only [BitVec.and_append, BitVec.zero_and, BitVec.and_zero]
  rfl

theorem statusWord_reservedBits (s : State) : s.statusWord &&& 0xFFFF00F0 = 0 := by
  show (0#16 ++ _ ++ 0#4 ++ _ ++ _ ++ _ ++ _ : BitVec (16 + 8 + 4 + 1 + 1 + 1 + 1)) &&&
    (0xFFFF#16 ++ 0#8 ++ 0xF#4 ++ 0#1 ++ 0#1 ++ 0#1 ++ 0#1 : BitVec (16 + 8 + 4 + 1 + 1 + 1 + 1)) = 0
  simp only [BitVec.and_append, BitVec.zero_and, BitVec.and_zero]
  rfl

theorem writeCtrl_mask (s : State) (v : Word) : s.writeCtrl (v &&& 0x3) = s.writeCtrl v := by
  simp [State.writeCtrl]

theorem acknowledge_mask (s : State) (v : Word) : s.acknowledge (v &&& 0xE) = s.acknowledge v := by
  simp [State.acknowledge]

theorem signField_mask (v : Word) : (v &&& 0xFFFF).extractLsb' 0 16 = v.extractLsb' 0 16 := by
  rw [← zero_append_extract_eq_and, extract_low]

/-- Settles O54: a reserved offset selects no register (`windowReg_reserved`); each register's word has zeros at its
reserved bits, and its write does not look at them. -/
theorem reservedOffsetsAndBitsReadZero : Obligations.ReservedOffsetsAndBitsReadZero := by
  refine ⟨fun s offset v _ aligned reserved => ?_, fun s => ?_, fun s v => ⟨?_, ?_, ?_⟩⟩
  · have selects := windowReg_reserved s.params reserved
    rw [stepOn_write_aligned s aligned, State.memWrite, State.memRead, selects]
    exact ⟨rfl, rfl⟩
  · exact ⟨paramWord_reservedBits s.params, halfWord_reservedBits _, ctrlWord_reservedBits s,
      statusWord_reservedBits s, halfWord_reservedBits s.sign, rfl⟩
  · exact congrArg Host.Outcome.next (writeCtrl_mask s v)
  · exact congrArg Host.Outcome.next (acknowledge_mask s v)
  · exact congrArg (fun sign => Host.Outcome.next { s with sign := sign }) (signField_mask v)

end Sys2Proof.Machine

/-! ## Scope: encoding (30_encoding.md)

The fields of a word (R81, R82), the rows that words select (R85 to R87), the round trips between words and commands,
and the words that acceptance rejects (R87, R88). -/

namespace Sys2Proof

/-! ### Fields as numbers (R81, R82) -/

theorem opcodeField_toNat (w : Word) : (opcodeField w).toNat = w.toNat % 2 ^ 8 := by
  simp [opcodeField]

theorem regField_val (w : Word) (lo : Nat) : (regField w lo).val = w.toNat / 2 ^ lo % 16 := by
  simp [regField, Nat.shiftRight_eq_div_pow]

theorem immField_toNat (w : Word) : (immField w).toNat = w.toNat / 2 ^ 16 := by
  have h : w.toNat / 2 ^ 16 < 2 ^ 16 := by omega
  rw [immField, BitVec.extractLsb'_toNat, Nat.shiftRight_eq_div_pow, Nat.mod_eq_of_lt h]

theorem bits_of_opcodeField {w : Word} {op : BitVec 8} (h : opcodeField w = op) : w.toNat % 2 ^ 8 = op.toNat :=
  h ▸ (opcodeField_toNat w).symm

theorem bits_of_regField {w : Word} {lo : Nat} {r : Reg} (h : regField w lo = r) : w.toNat / 2 ^ lo % 16 = r.val :=
  h ▸ (regField_val w lo).symm

theorem bits_of_immField {w : Word} {imm16 : BitVec 16} (h : immField w = imm16) :
    w.toNat / 2 ^ 16 = imm16.toNat :=
  h ▸ (immField_toNat w).symm

/-- Settles O3: each field function gives back the value placed in its field, and is the number at the field's bits. -/
theorem formatFieldsStandAtTheirBits : Obligations.FormatFieldsStandAtTheirBits := by
  refine ⟨fun op rd rs1 rs2 rs3 rd2 rd3 => ?_, fun op rd rs1 imm16 => ?_⟩
  · exact ⟨bits_of_opcodeField (opcodeField_formatR ..), bits_of_regField (rdField_formatR ..),
      bits_of_regField (rs1Field_formatR ..), bits_of_regField (rs2Field_formatR ..),
      bits_of_regField (rs3Field_formatR ..), bits_of_regField (rd2Field_formatR ..),
      bits_of_regField (rd3Field_formatR ..), opcodeField_formatR .., rdField_formatR .., rs1Field_formatR ..,
      rs2Field_formatR .., rs3Field_formatR .., rd2Field_formatR .., rd3Field_formatR ..⟩
  · exact ⟨bits_of_opcodeField (opcodeField_formatI ..), bits_of_regField (rdField_formatI ..),
      bits_of_regField (rs1Field_formatI ..), bits_of_immField (immField_formatI ..), opcodeField_formatI ..,
      rdField_formatI .., rs1Field_formatI .., immField_formatI ..⟩

/-! ### The row a word selects (R85, R86, R87) -/

theorem opcodeField_injOn_opcodeMap : ∀ row ∈ opcodeMap, ∀ row' ∈ opcodeMap,
    opcodeField row.bits = opcodeField row'.bits → row = row' := by decide

theorem rowOf_eq_none_iff {w : Word} :
    rowOf w = none ↔ ∀ row ∈ opcodeMap, opcodeField row.bits ≠ opcodeField w := by
  simp [rowOf]

theorem rowOf_eq_some_iff {w : Word} {row : OpcodeRow} :
    rowOf w = some row ↔ row ∈ opcodeMap ∧ opcodeField row.bits = opcodeField w := by
  constructor
  · intro h
    exact ⟨List.mem_of_find?_eq_some h, by simpa using List.find?_some h⟩
  · rintro ⟨mem, opcode⟩
    cases h : rowOf w with
    | none => exact absurd opcode (rowOf_eq_none_iff.1 h row mem)
    | some row' =>
      have opcode' : opcodeField row'.bits = opcodeField w := by simpa using List.find?_some h
      rw [opcodeField_injOn_opcodeMap row' (List.mem_of_find?_eq_some h) row mem (opcode'.trans opcode.symm)]

/-- A word that selects a row has the row's opcode, since every mask covers the opcode field. -/
theorem opcodeField_of_selects {w : Word} {row : OpcodeRow} (mem : row ∈ opcodeMap) (h : w &&& row.mask = row.bits) :
    opcodeField row.bits = opcodeField w := by
  have covered : ∀ row ∈ opcodeMap, opcodeField row.mask = 0xFF := by decide
  calc opcodeField row.bits = opcodeField w &&& opcodeField row.mask := by
        rw [← h, opcodeField, BitVec.extractLsb'_and]; rfl
    _ = opcodeField w := by rw [covered row mem]; exact and_ff _

/-- A register field the row's mask covers is the row's own. -/
theorem regField_of_selects {w : Word} {row : OpcodeRow} (h : w &&& row.mask = row.bits) (lo : Nat)
    (covered : regField row.mask lo = 15) : regField w lo = regField row.bits lo := by
  have full : row.mask.extractLsb' lo 4 = BitVec.allOnes 4 := BitVec.toFin_inj.1 covered
  rw [← h, regField, regField, BitVec.extractLsb'_and, full, BitVec.and_allOnes]

theorem selected_unique {w : Word} {row row' : OpcodeRow} (mem : row ∈ opcodeMap) (h : w &&& row.mask = row.bits)
    (mem' : row' ∈ opcodeMap) (h' : w &&& row'.mask = row'.bits) : row = row' :=
  opcodeField_injOn_opcodeMap row mem row' mem'
    ((opcodeField_of_selects mem h).trans (opcodeField_of_selects mem' h').symm)

/-! ### The three answers of the decoder (R86, R87) -/

theorem decode_eq_ok_iff {w : Word} {i : Instr} :
    decode w = .ok i ↔ ∃ row ∈ opcodeMap, w &&& row.mask = row.bits ∧ operandsOf row.op w = i := by
  constructor
  · intro h
    cases hr : rowOf w with
    | none => simp [decode, hr] at h
    | some row =>
      by_cases hm : w &&& row.mask = row.bits
      · rw [decode_of_row hr hm, Except.ok.injEq] at h
        exact ⟨row, (rowOf_eq_some_iff.1 hr).1, hm, h⟩
      · simp [decode, hr, hm] at h
  · rintro ⟨row, mem, hm, rfl⟩
    exact decode_of_row (rowOf_eq_some_iff.2 ⟨mem, opcodeField_of_selects mem hm⟩) hm

theorem decode_eq_unknownOpcode_iff {w : Word} :
    decode w = .error .unknownOpcode ↔ ∀ row ∈ opcodeMap, opcodeField row.bits ≠ opcodeField w := by
  rw [← rowOf_eq_none_iff, decode]
  cases hr : rowOf w with
  | none => simp
  | some row => by_cases hm : w &&& row.mask = row.bits <;> simp [hm]

theorem decode_eq_unusedField_iff {w : Word} : decode w = .error .unusedField ↔
    ∃ row ∈ opcodeMap, opcodeField row.bits = opcodeField w ∧ w &&& row.mask ≠ row.bits := by
  simp only [← and_assoc, ← rowOf_eq_some_iff, decode]
  cases hr : rowOf w with
  | none => simp
  | some row => by_cases hm : w &&& row.mask = row.bits <;> simp [hm]

/-! ### Round trips (R85, R90) -/

/-- Settles O1: the round trip of each command. -/
theorem decodeOfEncodeIsIdentity : Obligations.DecodeOfEncodeIsIdentity := by
  intro i
  cases i with
  | add rd rs1 rs2 => exact Laws.RoundTrip.add rd rs1 rs2
  | sub rd rs1 rs2 => exact Laws.RoundTrip.sub rd rs1 rs2
  | mul rd rs1 rs2 => exact Laws.RoundTrip.mul rd rs1 rs2
  | divmod rd rd2 rs1 rs2 => exact Laws.RoundTrip.divmod rd rd2 rs1 rs2
  | cmp rd rs1 rs2 => exact Laws.RoundTrip.cmp rd rs1 rs2
  | mov rd rs1 => exact Laws.RoundTrip.mov rd rs1
  | ldi rd imm16 => exact Laws.RoundTrip.ldi rd imm16
  | modmul rd rs1 rs2 rs3 => exact Laws.RoundTrip.modmul rd rs1 rs2 rs3
  | modexp rd rs1 rs2 rs3 => exact Laws.RoundTrip.modexp rd rs1 rs2 rs3
  | mrtest rd rs1 imm16 => exact Laws.RoundTrip.mrtest rd rs1 imm16
  | primegen rd => exact Laws.RoundTrip.primegen rd
  | egcd rd rd2 rd3 rs1 rs2 => exact Laws.RoundTrip.egcd rd rd2 rd3 rs1 rs2
  | modinv rd rs1 rs2 => exact Laws.RoundTrip.modinv rd rs1 rs2

/-- Settles O5: each word is the encoding of its command, and encodings decode back. -/
theorem specWordsDecodeToTheirCommands : Obligations.SpecWordsDecodeToTheirCommands :=
  ⟨decodeOfEncodeIsIdentity (.add 3 1 2), decodeOfEncodeIsIdentity (.divmod 3 4 1 2),
    decodeOfEncodeIsIdentity (.mov 2 1), decodeOfEncodeIsIdentity (.ldi 4 42),
    decodeOfEncodeIsIdentity (.modmul 4 1 2 3), decodeOfEncodeIsIdentity (.modexp 3 0 1 2),
    decodeOfEncodeIsIdentity (.mrtest 2 1 3), decodeOfEncodeIsIdentity (.primegen 1),
    decodeOfEncodeIsIdentity (.egcd 3 4 5 1 2), decodeOfEncodeIsIdentity (.modinv 3 1 2)⟩

/-- A word is the format R word of its fields. -/
theorem formatR_fields (w : Word) : formatR (opcodeField w) (rdField w) (rs1Field w) (rs2Field w) (rs3Field w)
    (rd2Field w) (rd3Field w) = w := by
  show w.extractLsb' 28 4 ++ w.extractLsb' 24 4 ++ w.extractLsb' 20 4 ++ w.extractLsb' 16 4 ++ w.extractLsb' 12 4 ++
    w.extractLsb' 8 4 ++ w.extractLsb' 0 8 = w
  simp only [BitVec.extractLsb'_append_extractLsb'_eq_extractLsb']
  exact extract_all w

/-- A word is the format I word of its fields. -/
theorem formatI_fields (w : Word) : formatI (opcodeField w) (rdField w) (rs1Field w) (immField w) = w := by
  show w.extractLsb' 16 16 ++ w.extractLsb' 12 4 ++ w.extractLsb' 8 4 ++ w.extractLsb' 0 8 = w
  simp only [BitVec.extractLsb'_append_extractLsb'_eq_extractLsb']
  exact extract_all w

theorem formatR_eq {w : Word} {op : BitVec 8} {rd rs1 rs2 rs3 rd2 rd3 : Reg} (hop : op = opcodeField w)
    (hrd : rd = rdField w) (hrs1 : rs1 = rs1Field w) (hrs2 : rs2 = rs2Field w) (hrs3 : rs3 = rs3Field w)
    (hrd2 : rd2 = rd2Field w) (hrd3 : rd3 = rd3Field w) : formatR op rd rs1 rs2 rs3 rd2 rd3 = w := by
  subst_vars
  exact formatR_fields w

theorem formatI_eq {w : Word} {op : BitVec 8} {rd rs1 : Reg} {imm16 : BitVec 16} (hop : op = opcodeField w)
    (hrd : rd = rdField w) (hrs1 : rs1 = rs1Field w) (himm : imm16 = immField w) : formatI op rd rs1 imm16 = w := by
  subst_vars
  exact formatI_fields w

/-- Encoding the operands a selected row reads gives the word back: a used field is the operand (`rfl`), and an unused
one is zero, since the row's mask covers it. -/
theorem encode_operandsOf {w : Word} {row : OpcodeRow} (mem : row ∈ opcodeMap) (h : w &&& row.mask = row.bits) :
    encode (operandsOf row.op w) = w := by
  have opcode := opcodeField_of_selects mem h
  have unused (lo : Nat) (covered : regField row.mask lo = 15) : regField row.bits lo = regField w lo :=
    (regField_of_selects h lo covered).symm
  simp only [opcodeMap, List.mem_cons, List.not_mem_nil, or_false] at mem
  obtain rfl | rfl | rfl | rfl | rfl | rfl | rfl | rfl | rfl | rfl | rfl | rfl | rfl := mem
  -- ADD
  · exact formatR_eq opcode rfl rfl rfl (unused 20 rfl) (unused 24 rfl) (unused 28 rfl)
  -- SUB
  · exact formatR_eq opcode rfl rfl rfl (unused 20 rfl) (unused 24 rfl) (unused 28 rfl)
  -- MUL
  · exact formatR_eq opcode rfl rfl rfl (unused 20 rfl) (unused 24 rfl) (unused 28 rfl)
  -- DIVMOD
  · exact formatR_eq opcode rfl rfl rfl (unused 20 rfl) rfl (unused 28 rfl)
  -- CMP
  · exact formatR_eq opcode rfl rfl rfl (unused 20 rfl) (unused 24 rfl) (unused 28 rfl)
  -- MOV
  · exact formatR_eq opcode rfl rfl (unused 16 rfl) (unused 20 rfl) (unused 24 rfl) (unused 28 rfl)
  -- LDI
  · exact formatI_eq opcode rfl (unused 12 rfl) rfl
  -- MODMUL
  · exact formatR_eq opcode rfl rfl rfl rfl (unused 24 rfl) (unused 28 rfl)
  -- MODEXP
  · exact formatR_eq opcode rfl rfl rfl rfl (unused 24 rfl) (unused 28 rfl)
  -- MRTEST
  · exact formatI_eq opcode rfl rfl rfl
  -- PRIMEGEN
  · exact formatR_eq opcode rfl (unused 12 rfl) (unused 16 rfl) (unused 20 rfl) (unused 24 rfl) (unused 28 rfl)
  -- EGCD
  · exact formatR_eq opcode rfl rfl rfl (unused 20 rfl) rfl rfl
  -- MODINV
  · exact formatR_eq opcode rfl rfl rfl (unused 20 rfl) (unused 24 rfl) (unused 28 rfl)

/-- Settles O2: the row the word selects gives its command, whose encoding is the word (`encode_operandsOf`). -/
theorem encodeOfDecodeIsIdentity : Obligations.EncodeOfDecodeIsIdentity := by
  intro w i hd
  obtain ⟨row, mem, selects, rfl⟩ := decode_eq_ok_iff.1 hd
  exact encode_operandsOf mem selects

/-! ### Illegal words (R87) -/

theorem isLegal_iff_selects_unique (w : Word) :
    (∃ i, decode w = .ok i) ↔ ∃! row, row ∈ opcodeMap ∧ w &&& row.mask = row.bits := by
  constructor
  · rintro ⟨i, hd⟩
    obtain ⟨row, mem, selects, -⟩ := decode_eq_ok_iff.1 hd
    exact ⟨row, ⟨mem, selects⟩, fun row' ⟨mem', selects'⟩ => selected_unique mem' selects' mem selects⟩
  · rintro ⟨row, ⟨mem, selects⟩, -⟩
    exact ⟨operandsOf row.op w, decode_eq_ok_iff.2 ⟨row, mem, selects, rfl⟩⟩

theorem isIllegal_iff (w : Word) : (∃ e, decode w = .error e) ↔
    ((∀ row ∈ opcodeMap, opcodeField row.bits ≠ opcodeField w) ∨
      ∃ row ∈ opcodeMap, opcodeField row.bits = opcodeField w ∧ w &&& row.mask ≠ row.bits) := by
  rw [← decode_eq_unknownOpcode_iff, ← decode_eq_unusedField_iff]
  constructor
  · rintro ⟨e, hd⟩
    cases e with
    | unknownOpcode => exact .inl hd
    | unusedField => exact .inr hd
  · rintro (hd | hd)
    · exact ⟨_, hd⟩
    · exact ⟨_, hd⟩

/-- The opcodes that R87 lists as illegal. -/
abbrev IllegalOpcode (n : Nat) : Prop :=
  n = 0 ∨ (0x08 ≤ n ∧ n ≤ 0x0F) ∨ (0x12 ≤ n ∧ n ≤ 0x1F) ∨ (0x22 ≤ n ∧ n ≤ 0x2F) ∨ 0x32 ≤ n

theorem decode_illegalOpcode {w : Word} (h : IllegalOpcode (opcodeField w).toNat) :
    decode w = .error .unknownOpcode := by
  have listed : ∀ row ∈ opcodeMap, ¬ IllegalOpcode (opcodeField row.bits).toNat := by decide
  exact decode_eq_unknownOpcode_iff.2 fun row mem opcode => listed row mem (opcode ▸ h)

/-- Settles O4: the decoder's two errors are the two ways to be illegal (`isIllegal_iff`), and the CMD write of such a
word is the illegal case of an acceptance (O16). -/
theorem illegalWordsAreExactlyThoseOfNoRow : Obligations.IllegalWordsAreExactlyThoseOfNoRow := by
  refine ⟨isIllegal_iff, isLegal_iff_selects_unique, fun w => decode_illegalOpcode, ?_, fun s w e idle hd => ?_⟩
  · exact ⟨.unknownOpcode, decode_illegalOpcode (.inl rfl)⟩
  · obtain ⟨illegal, -, -⟩ := Machine.acceptanceLatchesTheCommand.1 s w idle
    exact illegal e hd

/-! ### Coinciding destinations (R88) -/

theorem wf_eq_false_iff (i : Instr) : i.wf = false ↔
    (∃ rd rs1 rs2, i = .divmod rd rd rs1 rs2) ∨
      ∃ rd rd2 rd3 rs1 rs2, i = .egcd rd rd2 rd3 rs1 rs2 ∧ (rd = rd2 ∨ rd = rd3 ∨ rd2 = rd3) := by
  cases i with
  | divmod rd rd2 rs1 rs2 => simpa [Instr.wf] using eq_comm
  | egcd rd rd2 rd3 rs1 rs2 => simp [Instr.wf, imp_iff_not_or, or_assoc]
  | _ => simp [Instr.wf]

/-- Settles O18: the two commands with several destinations are the ones `Instr.wf` can reject, and acceptance answers
the encoded word by its command (O1, O16). -/
theorem coincidingDestinationsAreRejectedAtAcceptance :
    Obligations.CoincidingDestinationsAreRejectedAtAcceptance := by
  refine ⟨wf_eq_false_iff, fun s i idle => ?_⟩
  have decoded := decodeOfEncodeIsIdentity i
  obtain ⟨-, coinciding, accepted⟩ := Machine.acceptanceLatchesTheCommand.1 s (encode i) idle
  refine ⟨coinciding i decoded, fun wf => ?_⟩
  obtain ⟨t, l, write, busy, -⟩ := accepted i decoded wf
  exact ⟨t, write, (Machine.busy_iff t).2 ⟨l, busy⟩⟩

end Sys2Proof

/-! ## Scope: the large-integer support commands (40_arith.md)

The ends of a turn in the terms of the result statements, and what ADD, SUB, MUL, DIVMOD, CMP, MOV and LDI commit or
report (R101 to R107). -/

namespace Sys2Proof

/-- The word of a command selects the row that has its opcode (30_encoding.md R85). -/
theorem encode_and_mask {i : Instr} {row : OpcodeRow} (mem : row ∈ opcodeMap)
    (opcode : opcodeField row.bits = opcodeField (encode i)) : encode i &&& row.mask = row.bits := by
  obtain ⟨row', mem', selects, -⟩ := decode_eq_ok_iff.1 (decodeOfEncodeIsIdentity i)
  have same := opcode.trans (opcodeField_of_selects mem' selects).symm
  rwa [opcodeField_injOn_opcodeMap row mem row' mem' same]

/-- R107: the row of LDI leaves no `rs1` field. -/
theorem decode_ldi_of_rs1_ne_zero (rd : Reg) {rs1 : Reg} (imm16 : BitVec 16) (h : rs1 ≠ 0) :
    decode (formatI 0x07 rd rs1 imm16) = .error .unusedField := by
  refine decode_eq_unusedField_iff.2 ⟨⟨.ldi, 0x00000007, 0x0000F0FF⟩, by decide,
    (opcodeField_formatI 0x07 rd rs1 imm16).symm, fun selects => h ?_⟩
  calc rs1 = rs1Field (formatI 0x07 rd rs1 imm16) := (rs1Field_formatI ..).symm
    _ = regField 0x00000007 12 := regField_of_selects selects 12 rfl

end Sys2Proof

namespace Sys2Proof.Machine

/-! ### The two ends of a turn -/

/-- The draws and the candidate count of a turn are no part of what `EndedWith` compares. -/
theorem endedWith_of_turn {s t : State} {k : Nat} {p : Port} {c : ErrorCode} {w : Word}
    (h : EndedWith { s with candidates := k, port := p } t c w p) : EndedWith s t c w p where
  idle := h.idle
  done := h.done
  error := h.error
  errcmd := h.errcmd
  kept r := ⟨(h.kept r).limbs, (h.kept r).sign⟩
  controls := ⟨h.controls.params, h.controls.ie, h.controls.cmdovr, h.controls.pgcap, h.controls.inputs,
    h.controls.lastRead⟩
  port := h.port

section
variable {s : State} {i : Instr}

/-- A turn that ends with an error ends the command with it. -/
theorem exec_endedWith {c : ErrorCode} (hr : (s.turn i).result = some (.error c)) :
    ∃ t, exec i s = .next t ∧ EndedWith s t c (s.commandWord i) (s.turn i).port := by
  refine ⟨_, exec_eq_endTurn i s, ?_⟩
  rw [endTurn_error s i hr]
  exact endedWith_of_turn (raise_endedWith _ c _)

/-- A turn whose staged writes fit commits them. -/
theorem exec_commits_of_fits {ws : List (Reg × Int)} (hr : (s.turn i).result = some (.ok ws))
    (fits : StagesFit s (.ok ws)) : ∃ t, exec i s = .next t ∧ Committed s t ws (s.turn i).port := by
  obtain ⟨dests, wf⟩ := turn_resultOf hr
  have committed := complete_committed { s with candidates := (s.turn i).candidates, port := (s.turn i).port } ws
    (dests ▸ destsOf_nodup wf) fits
  refine ⟨_, exec_eq_endTurn i s, ?_⟩
  rw [endTurn_ok s i hr]
  simpa using committed_of_turn committed

/-- In a state of the invariant a turn commits whatever it staged. -/
theorem exec_commits (h : s.Inv) {ws : List (Reg × Int)} (hr : (s.turn i).result = some (.ok ws)) :
    ∃ t, exec i s = .next t ∧ Committed s t ws (s.turn i).port :=
  exec_commits_of_fits hr (turn_stagesFit h hr)

/-- The ends of ADD, SUB and MUL, which stage the exact value if it fits (40_arith.md R100(3)). -/
theorem exec_of_stageFitting {rd : Reg} {v : Int} (hr : (s.turn i).result = some (stageFitting s rd v)) :
    (v.natAbs < 2 ^ s.params.width → ∃ t, exec i s = .next t ∧ Committed s t [(rd, v)] (s.turn i).port) ∧
    (2 ^ s.params.width ≤ v.natAbs →
      ∃ t, exec i s = .next t ∧ EndedWith s t .overflow (s.commandWord i) (s.turn i).port) := by
  constructor
  · intro fits
    have staged : stageFitting s rd v = .ok [(rd, v)] := if_pos fits
    exact exec_commits_of_fits (hr.trans (congrArg some staged)) (stagesFit_one fits)
  · intro large
    have staged : stageFitting s rd v = .error .overflow := if_neg large.not_gt
    exact exec_endedWith (hr.trans (congrArg some staged))

end

/-! ### ADD, SUB and MUL (40_arith.md R101 to R103) -/

/-- Settles O23: ADD stages the exact sum if it fits (`exec_of_stageFitting`). -/
theorem addCommitsTheExactSum : Obligations.AddCommitsTheExactSum := fun _ rd rs1 rs2 =>
  ⟨rfl, encode_and_mask (row := ⟨.add, 0x00000001, 0xFFF000FF⟩) (by decide)
    (opcodeField_formatR 0x01 rd rs1 rs2 0 0 0).symm, exec_of_stageFitting rfl⟩

/-- Settles O24: SUB stages the exact difference if it fits (`exec_of_stageFitting`). -/
theorem subCommitsTheExactDifference : Obligations.SubCommitsTheExactDifference := fun _ rd rs1 rs2 =>
  ⟨rfl, encode_and_mask (row := ⟨.sub, 0x00000002, 0xFFF000FF⟩) (by decide)
    (opcodeField_formatR 0x02 rd rs1 rs2 0 0 0).symm, exec_of_stageFitting rfl⟩

/-- Settles O25: MUL stages the exact product if it fits (`exec_of_stageFitting`). -/
theorem mulCommitsTheExactProduct : Obligations.MulCommitsTheExactProduct := fun _ rd rs1 rs2 =>
  ⟨rfl, encode_and_mask (row := ⟨.mul, 0x00000003, 0xFFF000FF⟩) (by decide)
    (opcodeField_formatR 0x03 rd rs1 rs2 0 0 0).symm, exec_of_stageFitting rfl⟩

/-! ### DIVMOD (40_arith.md R104) -/

section
variable {rd rd2 : Reg} {a b : Int}

theorem divmodResult_of_neg (hd : rd ≠ rd2) (h : a < 0 ∨ b < 0) : divmodResult rd rd2 a b = .error .domain := by
  rw [divmodResult, if_neg hd, ← ite_or, if_pos h]

theorem divmodResult_zero (hd : rd ≠ rd2) (ha : 0 ≤ a) : divmodResult rd rd2 a 0 = .error .divZero := by
  rw [divmodResult, if_neg hd, if_neg ha.not_gt, if_neg (lt_irrefl 0), if_pos rfl]

theorem divmodResult_of_pos (hd : rd ≠ rd2) (ha : 0 ≤ a) (hb : 0 < b) :
    divmodResult rd rd2 a b = .ok [(rd, a / b), (rd2, a % b)] := by
  rw [divmodResult, if_neg hd, if_neg ha.not_gt, if_neg hb.not_gt, if_neg hb.ne']

end

/-- Settles O26: for a positive divisor the quotient and remainder of the integers are the ones R104 asks for, and
coinciding destinations are rejected at acceptance (O18). -/
theorem divmodCommitsQuotientAndRemainder : Obligations.DivmodCommitsQuotientAndRemainder := by
  intro s rd rd2 rs1 rs2 inv i a b
  have result {r : Except ErrorCode (List (Reg × Int))} (hr : divmodResult rd rd2 a b = r) :
      (s.turn i).result = some r := congrArg some hr
  refine ⟨rfl, encode_and_mask (row := ⟨.divmod, 0x00000004, 0xF0F000FF⟩) (by decide)
    (opcodeField_formatR 0x04 rd rs1 rs2 0 rd2 0).symm, fun same idle => ?_, fun differ neg => ?_,
    fun differ ha hb => ?_, fun differ ha hb => ?_⟩
  · obtain ⟨coinciding, -⟩ := coincidingDestinationsAreRejectedAtAcceptance.2 s i idle
    exact coinciding ((wf_eq_false_iff i).2 (.inl ⟨rd, rs1, rs2, congrArg (Instr.divmod rd · rs1 rs2) same.symm⟩))
  · exact exec_endedWith (result (divmodResult_of_neg differ neg))
  · exact exec_endedWith (result (hb ▸ divmodResult_zero differ ha))
  · obtain ⟨t, next, committed⟩ := exec_commits inv (result (divmodResult_of_pos differ ha hb))
    exact ⟨a / b, a % b, t, next, committed, (Int.ediv_mul_add_emod a b).symm,
      Int.emod_nonneg a (by omega), Int.emod_lt_of_pos a hb⟩

/-! ### CMP (40_arith.md R105) -/

theorem compare3_of_lt {a b : Int} (h : a < b) : compare3 a b = -1 := if_pos h

theorem compare3_self (a : Int) : compare3 a a = 0 := by
  rw [compare3, if_neg (lt_irrefl a), if_pos rfl]

theorem compare3_of_gt {a b : Int} (h : b < a) : compare3 a b = 1 := by
  rw [compare3, if_neg h.not_gt, if_neg h.ne']

/-- Settles O27: CMP commits `compare3` of its operands, which fits a register. -/
theorem cmpCommitsTheThreeWayComparison : Obligations.CmpCommitsTheThreeWayComparison := by
  intro s rd rs1 rs2 inv i a b
  have commits {c : Int} (hc : compare3 a b = c) : ∃ t, exec i s = .next t ∧ Committed s t [(rd, c)] s.port :=
    hc ▸ exec_commits inv rfl
  exact ⟨rfl, encode_and_mask (row := ⟨.cmp, 0x00000005, 0xFFF000FF⟩) (by decide)
    (opcodeField_formatR 0x05 rd rs1 rs2 0 0 0).symm, fun below => commits (compare3_of_lt below),
    fun equal => commits (equal ▸ compare3_self a), fun above => commits (compare3_of_gt above)⟩

/-! ### MOV and LDI (40_arith.md R106, R107) -/

/-- Settles O28: MOV stages its operand, which fits a register. -/
theorem movCommitsTheSource : Obligations.MovCommitsTheSource := fun _ rd rs1 inv =>
  ⟨rfl, encode_and_mask (row := ⟨.mov, 0x00000006, 0xFFFF00FF⟩) (by decide)
    (opcodeField_formatR 0x06 rd rs1 0 0 0 0).symm, rfl, exec_commits inv rfl⟩

theorem immValue_eq_toNat (imm16 : BitVec 16) : immValue imm16 = imm16.toNat :=
  BitVec.toNat_setWidth_of_le (by decide)

/-- Settles O29: LDI stages its immediate, and a nonzero `rs1` field makes the word illegal, which the CMD write
reports (O16). -/
theorem ldiCommitsTheImmediate : Obligations.LdiCommitsTheImmediate := by
  intro s rd imm16 inv i
  refine ⟨rfl, encode_and_mask (row := ⟨.ldi, 0x00000007, 0x0000F0FF⟩) (by decide)
    (opcodeField_formatI 0x07 rd 0 imm16).symm, fun rs1 nonzero => ?_, ?_⟩
  · have illegal := decode_ldi_of_rs1_ne_zero rd imm16 nonzero
    refine ⟨illegal, fun idle => ?_⟩
    obtain ⟨reported, -⟩ := acceptanceLatchesTheCommand.1 s _ idle
    exact reported _ illegal
  · rw [← immValue_eq_toNat]
    exact exec_commits inv rfl

end Sys2Proof.Machine

/-! ## Scope: the modular exponentiation unit (41_modexp.md)

What POWER computes, and what MODMUL and MODEXP commit or report (R120 to R122). -/

namespace Sys2Proof.Machine

/-! ### POWER (41_modexp.md R120) -/

theorem powerLoop_zero_exponent (m passes acc b : Nat) : powerLoop m passes acc b 0 = acc := by
  cases passes <;> rfl

theorem powerLoop_succ (m passes acc b : Nat) {e : Nat} (he : e ≠ 0) : powerLoop m (passes + 1) acc b e =
    powerLoop m passes (if e % 2 = 1 then acc * b % m else acc) (b * b % m) (e / 2) := if_neg he

/-- One pass of the loop keeps the product `acc · b^e` modulo `m`: the set bit goes into the accumulator, and the rest
of the exponent is halved over the squared base. -/
theorem powerLoop_pass_modEq (m acc b e : Nat) :
    (if e % 2 = 1 then acc * b % m else acc) * (b * b % m) ^ (e / 2) ≡ acc * b ^ e [MOD m] := by
  have squares : (b * b % m) ^ (e / 2) ≡ b ^ (2 * (e / 2)) [MOD m] := by
    rw [pow_mul, sq]
    exact (Nat.mod_modEq _ _).pow _
  split_ifs with odd
  · calc acc * b % m * (b * b % m) ^ (e / 2)
      _ ≡ acc * b * b ^ (2 * (e / 2)) [MOD m] := (Nat.mod_modEq _ _).mul squares
      _ = acc * b ^ (2 * (e / 2) + 1) := by ring
      _ = acc * b ^ e := by rw [show 2 * (e / 2) + 1 = e by omega]
  · have even : 2 * (e / 2) = e := by omega
    exact (even ▸ squares).mul_left acc

/-- With as many passes as the exponent the loop ends at the product of its invariant. -/
theorem powerLoop_modEq (m passes acc b e : Nat) (enough : e ≤ passes) :
    powerLoop m passes acc b e ≡ acc * b ^ e [MOD m] := by
  induction passes generalizing acc b e with
  | zero =>
    obtain rfl : e = 0 := by omega
    rw [powerLoop_zero_exponent, pow_zero, mul_one]
  | succ passes ih =>
    by_cases he : e = 0
    · rw [he, powerLoop_zero_exponent, pow_zero, mul_one]
    · rw [powerLoop_succ m passes acc b he]
      exact (ih _ _ _ (by omega)).trans (powerLoop_pass_modEq m acc b e)

theorem power_eq {m : Nat} (hm : 0 < m) (base e : Nat) : power base e m = base ^ e % m := by
  have congruent : power base e m ≡ base ^ e [MOD m] :=
    calc power base e m
      _ ≡ 1 % m * (base % m) ^ e [MOD m] := powerLoop_modEq m e _ _ e le_rfl
      _ ≡ 1 * base ^ e [MOD m] := (Nat.mod_modEq 1 m).mul ((Nat.mod_modEq base m).pow e)
      _ = base ^ e := one_mul _
  exact (Nat.mod_eq_of_lt (power_lt hm base e)).symm.trans congruent

/-- Settles O30: square and multiply keeps `acc · b^e` modulo `m` (`power_eq`), and every value is 0 modulo 1. -/
theorem powerIsTheModularPower : Obligations.PowerIsTheModularPower :=
  ⟨fun base e _ hm => power_eq hm base e, fun base e => Nat.lt_one_iff.1 (power_lt one_pos base e)⟩

/-- POWER of nonnegative integers, as MODEXP calls it (41_modexp.md R122). -/
theorem power_toNat {base e m : Int} (hb : 0 ≤ base) (hm : 1 ≤ m) :
    (power base.toNat e.toNat m.toNat : Int) = base ^ e.toNat % m := by
  rw [power_eq (by omega), Int.natCast_emod, Int.natCast_pow, Int.toNat_of_nonneg hb, Int.toNat_of_nonneg (by omega)]

/-! ### MODMUL and MODEXP (41_modexp.md R121, R122) -/

/-- Stage `v` for `rd` after the checks that MODMUL and MODEXP make of their operands, in the order of R121 and
R122. -/
def stageModular (rd : Reg) (a b m v : Int) : Except ErrorCode (List (Reg × Int)) :=
  if a < 0 then .error .domain
  else if b < 0 then .error .domain
  else if m < 0 then .error .domain
  else if m = 0 then .error .divZero
  else .ok [(rd, v)]

theorem modmulResult_eq_stageModular (rd : Reg) (a b m : Int) :
    modmulResult rd a b m = stageModular rd a b m (a * b % m) := rfl

theorem modexpResult_eq_stageModular (rd : Reg) (base e m : Int) :
    modexpResult rd base e m = stageModular rd base e m (power base.toNat e.toNat m.toNat) := rfl

section
variable {rd : Reg} {a b m v : Int}

theorem stageModular_of_neg (h : a < 0 ∨ b < 0 ∨ m < 0) : stageModular rd a b m v = .error .domain := by
  rw [stageModular, ← ite_or, ← ite_or, if_pos (or_assoc.2 h)]

theorem stageModular_zero (ha : 0 ≤ a) (hb : 0 ≤ b) : stageModular rd a b 0 v = .error .divZero := by
  rw [stageModular, if_neg ha.not_gt, if_neg hb.not_gt, if_neg (lt_irrefl 0), if_pos rfl]

theorem stageModular_of_pos (ha : 0 ≤ a) (hb : 0 ≤ b) (hm : 0 < m) : stageModular rd a b m v = .ok [(rd, v)] := by
  rw [stageModular, if_neg ha.not_gt, if_neg hb.not_gt, if_neg hm.not_gt, if_neg hm.ne']

/-- The ends of MODMUL and MODEXP: the first error that applies, or the commit of the staged value. -/
theorem exec_of_stageModular {s : State} {i : Instr} (inv : s.Inv)
    (hr : (s.turn i).result = some (stageModular rd a b m v)) :
    (a < 0 ∨ b < 0 ∨ m < 0 →
      ∃ t, exec i s = .next t ∧ EndedWith s t .domain (s.commandWord i) (s.turn i).port) ∧
    (0 ≤ a → 0 ≤ b → m = 0 →
      ∃ t, exec i s = .next t ∧ EndedWith s t .divZero (s.commandWord i) (s.turn i).port) ∧
    (0 ≤ a → 0 ≤ b → 1 ≤ m → ∃ t, exec i s = .next t ∧ Committed s t [(rd, v)] (s.turn i).port) := by
  refine ⟨fun neg => ?_, fun ha hb hm => ?_, fun ha hb hm => ?_⟩
  · exact exec_endedWith (hr.trans (congrArg some (stageModular_of_neg neg)))
  · subst hm
    exact exec_endedWith (hr.trans (congrArg some (stageModular_zero ha hb)))
  · exact exec_commits inv (hr.trans (congrArg some (stageModular_of_pos ha hb hm)))

end

/-- Settles O31: MODMUL stages the residue of the exact product after its checks (`exec_of_stageModular`). -/
theorem modmulCommitsTheProductModM : Obligations.ModmulCommitsTheProductModM := fun s rd rs1 rs2 rs3 inv =>
  ⟨rfl, encode_and_mask (row := ⟨.modmul, 0x00000010, 0xFF0000FF⟩) (by decide)
    (opcodeField_formatR 0x10 rd rs1 rs2 rs3 0 0).symm,
    exec_of_stageModular inv (congrArg some (modmulResult_eq_stageModular rd _ _ _))⟩

/-- Settles O32: MODEXP stages the value of POWER after its checks (`exec_of_stageModular`), which is the power modulo
`m` (O30). -/
theorem modexpCommitsThePowerModM : Obligations.ModexpCommitsThePowerModM := by
  intro s rd rs1 rs2 rs3 inv i base e m
  obtain ⟨domain, divZero, commits⟩ := exec_of_stageModular (i := i) inv
    (congrArg some (modexpResult_eq_stageModular rd base e m))
  refine ⟨rfl, encode_and_mask (row := ⟨.modexp, 0x00000011, 0xFF0000FF⟩) (by decide)
    (opcodeField_formatR 0x11 rd rs1 rs2 rs3 0 0).symm, domain, divZero, fun hb he hm => ?_⟩
  rw [← power_toNat hb hm]
  exact commits hb he hm

end Sys2Proof.Machine

/-! ## Scope: the primality tester and the prime generator (42_primality.md)

One Miller-Rabin trial and the run of trials as the spec words them (R130 to R132), what MRTEST commits or reports
(R133), and the candidates and engine steps of PRIMEGEN (R134 to R137). -/

namespace Sys2Proof.Machine

/-! ### DECOMP (42_primality.md R131) -/

/-- Each pass moves one factor 2 from `d` into the power, so the product stays, and `d` passes reach an odd one. -/
theorem decompLoop_spec (passes r d : Nat) (pos : 0 < d) (enough : d ≤ passes) :
    2 ^ r * d = 2 ^ (decompLoop passes r d).1 * (decompLoop passes r d).2 ∧ (decompLoop passes r d).2 % 2 = 1 := by
  induction passes generalizing r d with
  | zero => omega
  | succ passes ih =>
    unfold decompLoop
    split_ifs with even
    · have halved : 2 ^ r * d = 2 ^ (r + 1) * (d / 2) := by
        rw [pow_succ, mul_assoc, Nat.mul_div_cancel' (Nat.dvd_of_mod_eq_zero even)]
      rw [halved]
      exact ih (r + 1) (d / 2) (by omega) (by omega)
    · exact ⟨rfl, by omega⟩

theorem decomp_spec {n : Nat} (hn : 2 ≤ n) : n - 1 = 2 ^ (decomp n).1 * (decomp n).2 ∧ (decomp n).2 % 2 = 1 := by
  simpa [decomp] using decompLoop_spec n 0 (n - 1) (by omega) (by omega)

theorem exponent_le_of_odd {r r' d d' : Nat} (h : 2 ^ r * d = 2 ^ r' * d') (odd : d' % 2 = 1) : r ≤ r' := by
  have coprime : Nat.Coprime (2 ^ r) d' := (Nat.coprime_two_left.2 (Nat.odd_iff.2 odd)).pow_left r
  exact (Nat.pow_dvd_pow_iff_le_right (by decide)).1 (coprime.dvd_of_dvd_mul_right ⟨d, h.symm⟩)

/-! ### One trial (42_primality.md R130) -/

section
variable {n r d : Nat} (a : Nat)

/-- The decomposition of `n - 1` is unique, so any one of them decides the trial. -/
theorem passesTrial_iff (hn : n - 1 = 2 ^ r * d) (odd : d % 2 = 1) :
    PassesTrial n a ↔ a ^ d % n = 1 ∨ ∃ j < r, a ^ (2 ^ j * d) % n = n - 1 := by
  refine ⟨?_, fun passes => ⟨r, d, hn, odd, passes⟩⟩
  rintro ⟨r', d', hn', odd', passes⟩
  have same : 2 ^ r * d = 2 ^ r' * d' := hn.symm.trans hn'
  obtain rfl : r = r' := (exponent_le_of_odd same odd').antisymm (exponent_le_of_odd same.symm odd)
  obtain rfl : d = d' := Nat.eq_of_mul_eq_mul_left (Nat.two_pow_pos r) same
  exact passes

theorem squaresHit_iff (n count x : Nat) : squaresHit n count x = true ↔ ∃ j < count, x ^ 2 ^ (j + 1) % n = n - 1 := by
  induction count generalizing x with
  | zero => simp [squaresHit]
  | succ count ih =>
    have later (j : Nat) : (x * x % n) ^ 2 ^ (j + 1) % n = x ^ 2 ^ (j + 1 + 1) % n := by
      rw [← Nat.pow_mod, ← sq, ← pow_mul, ← pow_succ']
    rw [Nat.exists_lt_succ_left, squaresHit, zero_add, pow_one, sq]
    simp only [ite_eq_iff, ih, later]
    tauto

/-- The start and the `r - 1` squarings of a trial run through the powers `a^(2^j · d)` with `j < r`. -/
theorem trialPasses_iff (hn : 0 < n) (hr : 1 ≤ r) :
    trialPasses n r d a = true ↔ a ^ d % n = 1 ∨ ∃ j < r, a ^ (2 ^ j * d) % n = n - 1 := by
  obtain ⟨r, rfl⟩ := Nat.exists_eq_add_of_le' hr
  have squared (j : Nat) : (a ^ d % n) ^ 2 ^ (j + 1) % n = a ^ (2 ^ (j + 1) * d) % n := by
    rw [← Nat.pow_mod, ← pow_mul, mul_comm]
  rw [Nat.exists_lt_succ_left, pow_zero, one_mul]
  simp only [trialPasses, power_eq hn, ite_eq_iff, squaresHit_iff, Nat.add_sub_cancel, squared]
  tauto

/-- The machine's trial of an odd `n` is the spec's. -/
theorem trialPasses_decomp_iff (hn : 3 ≤ n) (odd : n % 2 = 1) :
    trialPasses n (decomp n).1 (decomp n).2 a = true ↔ PassesTrial n a := by
  obtain ⟨split, oddPart⟩ := decomp_spec (n := n) (by omega)
  have positive : 1 ≤ (decomp n).1 := by
    by_contra zero
    rw [show (decomp n).1 = 0 by omega, pow_zero, one_mul] at split
    omega
  rw [trialPasses_iff a (by omega) positive, passesTrial_iff a split oddPart]

end

/-! ### The run of trials (42_primality.md R130, R132) -/

/-- Settles O33: the port's answer is brought into the range (`intoRange_mem`), where it stands for itself
(`intoRange_self`). -/
theorem witnessesLieInTheirRange : Obligations.WitnessesLieInTheirRange := fun _ hn =>
  ⟨fun _ _ => intoRange_mem (by omega) _, fun _ _ low high => Prod.ext (intoRange_self low high) rfl⟩

section
variable {n r d : Nat} {p : Port}

theorem witnessAt_after (m t : Nat) : witnessAt n (p.after m) t = witnessAt n p (m + t) := by
  simp only [witnessAt, answer_after]

theorem mrTrials_succ (rounds : Nat) : mrTrials n r d (rounds + 1) p =
    if trialPasses n r d (witnessAt n p 0) then mrTrials n r d rounds (p.after 1) else (false, p.after 1) := rfl

theorem mrTrials_of_all_pass {rounds : Nat} (passes : ∀ t < rounds, trialPasses n r d (witnessAt n p t) = true) :
    mrTrials n r d rounds p = (true, p.after rounds) := by
  induction rounds generalizing p with
  | zero => rfl
  | succ rounds ih =>
    have later : ∀ t < rounds, trialPasses n r d (witnessAt n (p.after 1) t) = true := fun t ht => by
      rw [witnessAt_after]; exact passes (1 + t) (by omega)
    rw [mrTrials_succ, if_pos (passes 0 (by omega)), ih later, after_after, Nat.add_comm]

theorem mrTrials_of_first_failure {rounds fails : Nat} (within : fails < rounds)
    (passes : ∀ t < fails, trialPasses n r d (witnessAt n p t) = true)
    (failure : ¬ trialPasses n r d (witnessAt n p fails) = true) :
    mrTrials n r d rounds p = (false, p.after (fails + 1)) := by
  induction fails generalizing rounds p with
  | zero =>
    obtain ⟨rounds, rfl⟩ := Nat.exists_eq_add_of_lt within
    rw [mrTrials_succ, if_neg failure]
  | succ fails ih =>
    obtain ⟨rounds, rfl⟩ := Nat.exists_eq_add_of_le' (Nat.one_le_of_lt within)
    have later : ∀ t < fails, trialPasses n r d (witnessAt n (p.after 1) t) = true := fun t ht => by
      rw [witnessAt_after]; exact passes (1 + t) (by omega)
    have next : ¬ trialPasses n r d (witnessAt n (p.after 1) fails) = true := by
      rwa [witnessAt_after, Nat.add_comm]
    rw [mrTrials_succ, if_pos (passes 0 (by omega)), ih (by omega) later next, after_after, Nat.add_comm]

/-- MR of an odd `n` whose trials all pass. -/
theorem mr_of_all_pass {rounds : Nat} (hn : 3 ≤ n) (odd : n % 2 = 1)
    (passes : ∀ t < rounds, PassesTrial n (witnessAt n p t)) : mr n rounds p = (true, p.after rounds) :=
  mrTrials_of_all_pass fun t ht => (trialPasses_decomp_iff _ hn odd).2 (passes t ht)

/-- MR of an odd `n` stops at the first trial that fails. -/
theorem mr_of_first_failure {rounds fails : Nat} (hn : 3 ≤ n) (odd : n % 2 = 1) (within : fails < rounds)
    (passes : ∀ t < fails, PassesTrial n (witnessAt n p t)) (failure : ¬ PassesTrial n (witnessAt n p fails)) :
    mr n rounds p = (false, p.after (fails + 1)) :=
  mrTrials_of_first_failure within (fun t ht => (trialPasses_decomp_iff _ hn odd).2 (passes t ht))
    (failure ∘ (trialPasses_decomp_iff _ hn odd).1)

end

/-! ### MRTEST (42_primality.md R133) -/

section
variable {rd : Reg} {n : Int} {rounds : Nat} {p : Port}

theorem mrtestResult_of_bad (h : n < 0 ∨ n = 1) : mrtestResult rd n rounds p = (.error .domain, p) := by
  rcases h with neg | rfl
  · exact if_pos neg
  · rfl

theorem mrtestResult_of_even (nonneg : 0 ≤ n) (even : n % 2 = 0) :
    mrtestResult rd n rounds p = (.ok [(rd, 0)], p) := by
  rw [mrtestResult, if_neg nonneg.not_gt, if_pos even]

theorem mrtestResult_of_odd (hn : 3 ≤ n) (odd : n % 2 = 1) : mrtestResult rd n rounds p =
    (.ok [(rd, if (mr n.toNat rounds p).1 then 1 else 0)], (mr n.toNat rounds p).2) := by
  rw [mrtestResult, if_neg (by omega), if_neg (by omega), if_neg (by omega)]

end

/-! ### What follows a turn that draws: a commit, an error, or the command still in progress (10_state.md R27, R28) -/

section
variable {s : State} {i : Instr} {k : Nat} {port : Port}

theorem exec_commits_of_turn (inv : s.Inv) {ws : List (Reg × Int)} (turn : s.turn i = ⟨k, port, some (.ok ws)⟩) :
    ∃ t, exec i s = .next t ∧ Committed s t ws port := by
  have commits := exec_commits inv (congrArg Turn.result turn)
  rwa [turn] at commits

theorem exec_endedWith_of_turn {c : ErrorCode} (turn : s.turn i = ⟨k, port, some (.error c)⟩) :
    ∃ t, exec i s = .next t ∧ EndedWith s t c (s.commandWord i) port := by
  have ends := exec_endedWith (congrArg Turn.result turn)
  rwa [turn] at ends

/-- A turn that ends with nothing leaves the command in progress. -/
theorem exec_goesOn (turn : s.turn i = ⟨k, port, none⟩) :
    exec i s = .next { s with candidates := k, port := port, engine := .busy (s.latchInForce i), done := false,
                              error := none } := by
  rw [exec_eq_endTurn, endTurn_goesOn s i (congrArg Turn.result turn), turn]

end

theorem turn_mrtest {s : State} {rd rs1 : Reg} {imm16 : BitVec 16} {result : Except ErrorCode (List (Reg × Int))}
    {port : Port} (h : mrtestResult rd (s.operand rs1) imm16.toNat s.port = (result, port)) :
    s.turn (.mrtest rd rs1 imm16) = ⟨s.candidates, port, some result⟩ := by
  rw [← immValue_eq_toNat] at h
  simp only [State.turn, h]

/-- Settles O34: MRTEST ends as its checks and MR say (`mrtestResult_of_odd`), and MR runs its trials in order
(`mr_of_all_pass`, `mr_of_first_failure`). -/
theorem mrtestRunsItsTrialsInOrder : Obligations.MrtestRunsItsTrialsInOrder := by
  intro s rd rs1 imm16 inv i n passes
  refine ⟨rfl, encode_and_mask (row := ⟨.mrtest, 0x00000020, 0x000000FF⟩) (by decide)
    (opcodeField_formatI 0x20 rd rs1 imm16).symm, fun bad => ?_, fun nonneg even => ?_, fun large odd pass => ?_,
    fun large odd fails within pass failure => ?_⟩
  · exact exec_endedWith_of_turn (turn_mrtest (mrtestResult_of_bad bad))
  · exact exec_commits_of_turn inv (turn_mrtest (mrtestResult_of_even nonneg even))
  · have tested := mr_of_all_pass (by omega) (by omega) pass
    exact exec_commits_of_turn inv (turn_mrtest (by rw [mrtestResult_of_odd large odd, tested]; rfl))
  · have tested := mr_of_first_failure (by omega) (by omega) within pass failure
    exact exec_commits_of_turn inv (turn_mrtest (by rw [mrtestResult_of_odd large odd, tested]; rfl))

/-! ### Primes and composites under MRTEST (42_primality.md R139, 90_conflicts.md C2) -/

/-- Square roots of 1 are 1 and -1, so a chain of squarings that ends at 1 starts there or meets -1. -/
theorem eq_one_or_exists_eq_neg_one {R : Type} [Ring R] [NoZeroDivisors R] {x : R} {r : Nat} (h : x ^ 2 ^ r = 1) :
    x = 1 ∨ ∃ j < r, x ^ 2 ^ j = -1 := by
  induction r with
  | zero => exact .inl (by simpa using h)
  | succ r ih =>
    rw [pow_succ, pow_mul, sq, mul_self_eq_one_iff] at h
    rcases h with one | neg
    · exact (ih one).imp_right fun ⟨j, hj, hit⟩ => ⟨j, by omega, hit⟩
    · exact .inr ⟨r, by omega, neg⟩

/-- R139: by Fermat the squarings of a trial of a prime end at 1. -/
theorem passesTrial_of_prime {p a : Nat} (prime : p.Prime) (pos : 0 < a) (below : a < p) : PassesTrial p a := by
  have : Fact p.Prime := ⟨prime⟩
  have two := prime.two_le
  obtain ⟨split, odd⟩ := decomp_spec two
  have residue {x y : Nat} (h : (x : ZMod p) = y) (hy : y < p) : x % p = y :=
    ((ZMod.natCast_eq_natCast_iff' x y p).1 h).trans (Nat.mod_eq_of_lt hy)
  have nonzero : (a : ZMod p) ≠ 0 := fun zero =>
    Nat.not_dvd_of_pos_of_lt pos below ((ZMod.natCast_eq_zero_iff a p).1 zero)
  have fermat : ((a : ZMod p) ^ (decomp p).2) ^ 2 ^ (decomp p).1 = 1 := by
    rw [← pow_mul, mul_comm, ← split]
    exact ZMod.pow_card_sub_one_eq_one nonzero
  refine (passesTrial_iff a split odd).2 ((eq_one_or_exists_eq_neg_one fermat).imp (fun one => ?_) ?_)
  · exact residue (by exact_mod_cast one) (by omega)
  · rintro ⟨j, hj, neg⟩
    refine ⟨j, hj, residue ?_ (by omega)⟩
    rw [Nat.cast_pow, mul_comm, pow_mul, neg, Nat.cast_sub (by omega), ZMod.natCast_self, Nat.cast_one, zero_sub]

/-- Settles O35: every witness is in the range (O33), where a prime passes every trial (`passesTrial_of_prime`). -/
theorem mrtestAcceptsEveryOddPrime : Obligations.MrtestAcceptsEveryOddPrime := by
  intro s rd rs1 imm16 p inv prime ne_two operand
  have odd := prime.eq_two_or_odd.resolve_left ne_two
  have two := prime.two_le
  obtain ⟨-, -, -, -, accepts, -⟩ := mrtestRunsItsTrialsInOrder s rd rs1 imm16 inv
  simp only [operand, Int.toNat_natCast] at accepts
  refine accepts (by omega) (by omega) fun t _ => ?_
  obtain ⟨low, high⟩ := (witnessesLieInTheirRange p (by omega)).1 s.port t
  exact passesTrial_of_prime prime (by omega) (by omega)

/-- 90_conflicts.md C2: 50 is a strong liar of 561, and 2 is not. -/
theorem passesTrial_561_50 : PassesTrial 561 50 :=
  (trialPasses_decomp_iff 50 (by decide) rfl).1 (by decide +kernel)

theorem not_passesTrial_561_2 : ¬ PassesTrial 561 2 :=
  mt (trialPasses_decomp_iff 2 (by decide) rfl).2 (by decide +kernel)

/-- A listed answer that lies in the range is the witness of the next draw. -/
theorem witnessAt_cons {n a : Nat} (p : Port) (low : 2 ≤ a) (high : a ≤ min (n - 1) 100000) :
    witnessAt n { p with answers := a :: p.answers } 0 = a := intoRange_self low high

/-- The random port is no part of the invariant. -/
theorem withPort_inv {s : State} (h : s.Inv) (p : Port) : State.Inv { s with port := p } :=
  inv_of_sameCommand h rfl (fun _ => rfl) rfl rfl id id

/-- Settles O36: 50 passes and 2 fails the one trial, and the rest of the state is the same. -/
theorem mrtestOnACompositeDependsOnItsDraws : Obligations.MrtestOnACompositeDependsOnItsDraws := by
  intro s rd rs1 p inv operand drawing drawn
  have operand' (a : Nat) : (drawing a).operand rs1 = 561 := operand
  have witness (a : Nat) (low : 2 ≤ a) (high : a ≤ 560) : witnessAt 561 (drawing a).port 0 = a :=
    witnessAt_cons p low (by omega)
  constructor
  · obtain ⟨-, -, -, -, accepts, -⟩ := mrtestRunsItsTrialsInOrder (drawing 50) rd rs1 1 (withPort_inv inv _)
    rw [operand'] at accepts
    refine accepts (by decide) rfl fun t ht => ?_
    obtain rfl : t = 0 := Nat.lt_one_iff.1 ht
    show PassesTrial 561 (witnessAt 561 (drawing 50).port 0)
    rw [witness 50 (by decide) (by decide)]
    exact passesTrial_561_50
  · obtain ⟨-, -, -, -, -, rejects⟩ := mrtestRunsItsTrialsInOrder (drawing 2) rd rs1 1 (withPort_inv inv _)
    rw [operand'] at rejects
    refine rejects (by decide) rfl 0 (by decide) nofun ?_
    show ¬ PassesTrial 561 (witnessAt 561 (drawing 2).port 0)
    rw [witness 2 (by decide) (by decide)]
    exact not_passesTrial_561_2

/-! ### Candidates (42_primality.md R134) -/

/-- Byte `i` of a candidate of `length` bytes: the drawn byte, with the top bit of the first byte and the bottom bit of
the last one forced. -/
def forcedByte (length : Nat) (p : Port) (i : Nat) : Byte :=
  let top := if i = 0 then BitVec.ofNat 8 (p.answer i) ||| 0x80 else BitVec.ofNat 8 (p.answer i)
  if i = length - 1 then top ||| 0x01 else top

theorem bigEndian_append_singleton (bytes : List Byte) (b : Byte) :
    bigEndian (bytes ++ [b]) = bigEndian bytes * 256 + b.toNat := by
  simp [bigEndian]

theorem bigEndian_map_range (f : Nat → Byte) (length : Nat) :
    bigEndian ((List.range length).map f) = ∑ i ∈ Finset.range length, (f i).toNat * 256 ^ (length - 1 - i) := by
  induction length with
  | zero => rfl
  | succ length ih =>
    rw [List.range_succ, List.map_append, List.map_singleton, bigEndian_append_singleton, ih, Finset.sum_range_succ,
      Finset.sum_mul, Nat.add_sub_cancel, Nat.sub_self, pow_zero, mul_one]
    refine congrArg (· + (f length).toNat) (Finset.sum_congr rfl fun i hi => ?_)
    have below := Finset.mem_range.1 hi
    rw [mul_assoc, ← pow_succ, show length - 1 - i + 1 = length - i by omega]

section
variable (length : Nat) (p : Port)

theorem forceBytes_drawBytes :
    forceBytes (drawBytes length p).1 = (List.range length).map (forcedByte length p) := by
  refine List.ext_getElem (by simp [forceBytes, drawBytes]) fun i _ _ => ?_
  cases i <;> simp [forceBytes, drawBytes, forcedByte, List.getElem_modify, List.getElem_modifyHead, eq_comm]

theorem candidate_eq_bigEndian :
    (candidate length p).1 = bigEndian ((List.range length).map (forcedByte length p)) :=
  congrArg bigEndian (forceBytes_drawBytes length p)

theorem candidate_eq_sum : (candidate length p).1 =
    ∑ i ∈ Finset.range length, (forcedByte length p i).toNat * 256 ^ (length - 1 - i) :=
  (candidate_eq_bigEndian length p).trans (bigEndian_map_range _ length)

theorem forcedByte_first_ge : 128 ≤ (forcedByte length p 0).toNat := by
  have top : 128 ≤ (BitVec.ofNat 8 (p.answer 0) ||| 0x80).toNat := by
    rw [BitVec.toNat_or]; exact Nat.right_le_or
  simp only [forcedByte, if_true]
  split_ifs
  · rw [BitVec.toNat_or]; exact top.trans Nat.left_le_or
  · exact top

theorem forcedByte_last_odd : (forcedByte (length + 1) p length).toNat % 2 = 1 := by
  simp only [forcedByte, Nat.add_sub_cancel, if_true, BitVec.toNat_or]
  exact Nat.or_mod_two_eq_one.2 (.inr rfl)

end

section
variable {length : Nat} (p : Port)

theorem candidate_odd (pos : 1 ≤ length) : (candidate length p).1 % 2 = 1 := by
  obtain ⟨length, rfl⟩ := Nat.exists_eq_add_of_le' pos
  have last := forcedByte_last_odd length p
  rw [candidate_eq_bigEndian, List.range_succ, List.map_append, List.map_singleton, bigEndian_append_singleton]
  omega

theorem candidate_ge (pos : 1 ≤ length) : 2 ^ (8 * length - 1) ≤ (candidate length p).1 := by
  calc 2 ^ (8 * length - 1)
    _ = 128 * 256 ^ (length - 1 - 0) := by
      rw [show 8 * length - 1 = 7 + 8 * (length - 1 - 0) by omega, pow_add, pow_mul]
      norm_num
    _ ≤ (forcedByte length p 0).toNat * 256 ^ (length - 1 - 0) :=
      Nat.mul_le_mul_right _ (forcedByte_first_ge length p)
    _ ≤ ∑ i ∈ Finset.range length, (forcedByte length p i).toNat * 256 ^ (length - 1 - i) :=
      Finset.single_le_sum (f := fun i => (forcedByte length p i).toNat * 256 ^ (length - 1 - i))
        (fun _ _ => Nat.zero_le _) (Finset.mem_range.2 pos)
    _ = (candidate length p).1 := (candidate_eq_sum length p).symm

theorem candidate_ge_three (pos : 1 ≤ length) : 3 ≤ (candidate length p).1 :=
  calc 3 ≤ 2 ^ 7 := by decide
    _ ≤ 2 ^ (8 * length - 1) := Nat.pow_le_pow_right two_pos (by omega)
    _ ≤ (candidate length p).1 := candidate_ge p pos

end

/-- Settles O37: the forced bytes are the summands (`candidate_eq_sum`), the last one is odd and the first one at least
128. -/
theorem candidatesAreFormedFromTheDrawnBytes : Obligations.CandidatesAreFormedFromTheDrawnBytes := fun length p pos =>
  ⟨candidate_eq_sum length p, rfl, candidate_odd p pos, candidate_ge p pos, candidate_lt length p⟩

/-! ### One engine step of PRIMEGEN (42_primality.md R135, R136) -/

section
variable {s : State} {rd : Reg}

theorem one_le_pgLen (inv : s.Inv) : 1 ≤ s.params.pgLen := by
  obtain ⟨-, -, long, -⟩ := inv.params
  omega

theorem turn_primegen {pass : Bool} {port : Port}
    (tested : mr (candidate s.params.pgLen s.port).1 20 (s.port.after s.params.pgLen) = (pass, port)) :
    s.turn (.primegen rd) = ⟨s.candidatesSoFar + 1, port,
      if pass then some (.ok [(rd, ((candidate s.params.pgLen s.port).1 : Int))])
      else if s.capInForce ≠ 0 ∧ s.candidatesSoFar + 1 = s.capInForce.toNat then some (.error .pgCap)
      else none⟩ := by
  have drawn : mr (candidate s.params.pgLen s.port).1 Config.pgRounds (candidate s.params.pgLen s.port).2 =
    (pass, port) := tested
  simp only [State.turn, drawn]

end

/-- Settles O38: the candidate's bytes are drawn before MR draws its witnesses (`turn_primegen`), and a candidate is an
odd number MR is defined for. -/
theorem primegenStepTestsOneCandidate : Obligations.PrimegenStepTestsOneCandidate := by
  intro s rd inv i length c k cap passes
  have large : 3 ≤ c := candidate_ge_three s.port (one_le_pgLen inv)
  have odd : c % 2 = 1 := candidate_odd s.port (one_le_pgLen inv)
  refine ⟨rfl, encode_and_mask (row := ⟨.primegen, 0x00000021, 0xFFFFF0FF⟩) (by decide)
    (opcodeField_formatR 0x21 rd 0 0 0 0 0).symm, fun pass => ?_, fun fails within pass failure => ?_⟩
  · have turn := turn_primegen (rd := rd) (mr_of_all_pass large odd pass)
    rw [after_after] at turn
    exact exec_commits_of_turn inv turn
  · have turn := turn_primegen (rd := rd) (mr_of_first_failure large odd within pass failure)
    rw [after_after, if_neg Bool.false_ne_true] at turn
    refine ⟨fun capped reached => ?_, fun below => ?_⟩
    · rw [if_pos ⟨capped, reached⟩] at turn
      exact exec_endedWith_of_turn turn
    · rw [if_neg (by tauto)] at turn
      exact ⟨_, exec_goesOn turn, rfl, rfl, rfl, rfl, fun _ => ⟨rfl, rfl⟩, rfl, ⟨rfl, rfl, rfl, rfl, rfl, rfl⟩, rfl⟩

/-- A PRIMEGEN that ends without an error committed its candidate: its other ends set ERR or stay busy. -/
theorem exec_primegen_commits_candidate {s t : State} {rd : Reg} (inv : s.Inv) (next : exec (.primegen rd) s = .next t)
    (idle : t.busy = false) (noError : t.error = none) :
    ∃ port, Committed s t [(rd, ((candidate s.params.pgLen s.port).1 : Int))] port := by
  rcases tested : mr (candidate s.params.pgLen s.port).1 20 (s.port.after s.params.pgLen) with ⟨pass, port⟩
  have turn := turn_primegen (rd := rd) tested
  cases pass with
  | true =>
    obtain ⟨t', next', committed⟩ := exec_commits_of_turn inv turn
    cases next.symm.trans next'
    exact ⟨port, committed⟩
  | false =>
    rw [if_neg Bool.false_ne_true] at turn
    split_ifs at turn
    · obtain ⟨t', next', ended⟩ := exec_endedWith_of_turn turn
      cases next.symm.trans next'
      have error := ended.error.1
      simp [State.err, noError] at error
    · cases next.symm.trans (exec_goesOn turn)
      cases idle

/-- Settles O39: what PRIMEGEN commits is its candidate (`exec_primegen_commits_candidate`), with the oddness and length
of O37. -/
theorem primegenCommitsOddFullLengthValues : Obligations.PrimegenCommitsOddFullLengthValues := by
  intro s t rd inv next idle noError
  obtain ⟨port, committed⟩ := exec_primegen_commits_candidate inv next idle noError
  obtain ⟨value, sign⟩ : t.x rd = ((candidate s.params.pgLen s.port).1 : Int) ∧ t.signBit rd = _ :=
    committed.written _ List.mem_cons_self
  obtain ⟨-, -, odd, ge, lt⟩ := candidatesAreFormedFromTheDrawnBytes _ s.port (one_le_pgLen inv)
  rw [value, sign]
  exact ⟨by omega, by exact_mod_cast ge, by exact_mod_cast lt, by simp⟩

/-! ### Runs of PRIMEGEN (42_primality.md R136, R137) -/

theorem run_succ {s t : State} (n : Nat) (next : step s = .next t) :
    Host.Core.run Sys2Proof.core (n + 1) s = Host.Core.run Sys2Proof.core n t := by
  have core_next : Sys2Proof.core.step s = .next t := next
  simp only [Host.Core.run, core_next]

section
variable {s : State} {l : Latch} {rd : Reg}

/-- An engine step of a busy PRIMEGEN ends it or counts one more candidate under the same latch. -/
theorem exec_primegen_cases (busy : s.engine = .busy l) : ∃ t, exec (.primegen rd) s = .next t ∧
    (t.busy = false ∧ t.done = true ∨
      t.engine = .busy l ∧ t.candidates = s.candidates + 1 ∧ t.inputs = s.inputs) := by
  obtain ⟨k, port, t, next, -, -, counts, ended⟩ := exec_cases (.primegen rd) s
  refine ⟨t, next, ?_⟩
  cases ended with
  | committed ws _ _ eq => subst eq; exact .inl ⟨rfl, rfl⟩
  | failed code _ eq => subst eq; exact .inl ⟨rfl, rfl⟩
  | goesOn _ _ _ eq =>
    subst eq
    have count := counts ⟨rd, rfl⟩
    simp only [State.candidatesSoFar, busy] at count
    exact .inr ⟨by simp only [State.latchInForce, busy], count, rfl⟩

/-- The steps left under the cap are a variant: the invariant keeps it positive while PRIMEGEN is busy. -/
theorem capped_run_ends (inv : s.Inv) (busy : s.engine = .busy l) (decoded : decode l.word = .ok (.primegen rd))
    (alone : s.inputs = []) (capped : l.cap ≠ 0) :
    ∃ n t, n ≤ l.cap.toNat - s.candidates ∧ Host.Core.run Sys2Proof.core n s = .next t ∧ t.busy = false ∧
      t.done = true := by
  induction left : l.cap.toNat - s.candidates generalizing s with
  | zero =>
    have below := inv.cap l busy capped
    omega
  | succ left ih =>
    obtain ⟨t, exec_next, ends⟩ := exec_primegen_cases (rd := rd) busy
    have next : step s = .next t :=
      ((engineTurnRunsTheLatchedCommand s l _ busy decoded).1 alone).trans exec_next
    rcases ends with ⟨idle, done⟩ | ⟨still, count, inputs⟩
    · exact ⟨1, t, by omega, run_succ 0 next, idle, done⟩
    · obtain ⟨n, u, bound, run, ended⟩ :=
        ih (exec_inv inv busy exec_next) still (inputs.trans alone) (by omega)
      exact ⟨n + 1, u, by omega, (run_succ n next).trans run, ended⟩

end

/-- Settles O40, by induction on the candidates the cap leaves (`capped_run_ends`). -/
theorem cappedPrimegenEndsWithinItsCap : Obligations.CappedPrimegenEndsWithinItsCap :=
  fun _ _ _ inv busy decoded alone capped => capped_run_ends inv busy decoded alone capped

/-- A witness that shares a factor with `n` fails: the factor divides every power of the witness modulo `n`, but neither
1 nor `n - 1`. -/
theorem not_passesTrial_of_common_factor {g n a : Nat} (hg : 1 < g) (hn : 0 < n) (factor : g ∣ n) (shared : g ∣ a) :
    ¬ PassesTrial n a := by
  have power_dvd {e : Nat} (he : e ≠ 0) : g ∣ a ^ e % n := (Nat.dvd_mod_iff factor).2 (dvd_pow shared he)
  have not_unit : ¬ g ∣ 1 := Nat.not_dvd_of_pos_of_lt one_pos hg
  rintro ⟨r, d, -, odd, one | ⟨j, -, minusOne⟩⟩
  · exact not_unit (one ▸ power_dvd (by omega))
  · have below : g ∣ n - 1 :=
      minusOne ▸ power_dvd (mul_ne_zero (Nat.two_pow_pos j).ne' (by omega))
    exact not_unit ((Nat.dvd_sub factor below).trans (by rw [Nat.sub_sub_self hn]))

/-- Where the port answers every draw of a candidate with 255, every byte of the candidate is 255. -/
theorem dvd_candidate_of_answers {length : Nat} {p : Port} (answers : ∀ t < length, p.answer t = 255) :
    255 ∣ (candidate length p).1 := by
  rw [candidate_eq_sum]
  refine Finset.dvd_sum fun i hi => Dvd.dvd.mul_right ?_ _
  have byte : forcedByte length p i = 255 := by
    simp only [forcedByte, answers i (Finset.mem_range.1 hi)]
    split_ifs <;> rfl
  rw [byte]
  exact dvd_rfl

/-- While the port answers every draw with 255, each candidate and its first witness share the factor 255, so an
uncapped PRIMEGEN goes on. -/
theorem uncapped_run_stays_busy (n : Nat) {s : State} {l : Latch} {rd : Reg} (inv : s.Inv) (busy : s.engine = .busy l)
    (decoded : decode l.word = .ok (.primegen rd)) (alone : s.inputs = []) (uncapped : l.cap = 0)
    (answers : ∀ t < (s.params.pgLen + 1) * n, s.port.answer t = 255) :
    ∃ t, Host.Core.run Sys2Proof.core n s = .next t ∧ t.busy = true ∧ t.candidates = s.candidates + n := by
  induction n generalizing s with
  | zero => exact ⟨s, rfl, (busy_iff s).2 ⟨l, busy⟩, rfl⟩
  | succ n ih =>
    have pos := one_le_pgLen inv
    rw [show (s.params.pgLen + 1) * (n + 1) = s.params.pgLen + 1 + (s.params.pgLen + 1) * n by ring] at answers
    have large : 2 ^ 8 ≤ (candidate s.params.pgLen s.port).1 := by
      obtain ⟨-, -, long, -⟩ := inv.params
      exact (Nat.pow_le_pow_right two_pos (by omega)).trans (candidate_ge s.port pos)
    have witness : witnessAt (candidate s.params.pgLen s.port).1 (s.port.after s.params.pgLen) 0 = 255 := by
      rw [witnessAt_after, witnessAt, answers _ (by omega)]
      exact intoRange_self (by decide) (by omega)
    have fails : ¬ PassesTrial (candidate s.params.pgLen s.port).1
        (witnessAt (candidate s.params.pgLen s.port).1 (s.port.after s.params.pgLen) 0) := by
      rw [witness]
      exact not_passesTrial_of_common_factor (by decide) (by omega)
        (dvd_candidate_of_answers fun t ht => answers t (by omega)) dvd_rfl
    obtain ⟨-, -, -, rejects⟩ := primegenStepTestsOneCandidate s rd inv
    have noCap : s.capInForce = 0 := by simp only [State.capInForce, busy, uncapped]
    obtain ⟨t, exec_next, still, count, -, -, -, -, controls, port⟩ :=
      (rejects 0 (by decide) nofun fails).2 (.inl noCap)
    simp only [State.latchInForce, State.candidatesSoFar, busy] at still count
    have next : step s = .next t :=
      ((engineTurnRunsTheLatchedCommand s l _ busy decoded).1 alone).trans exec_next
    obtain ⟨u, run, busyAfter, total⟩ := ih (exec_inv inv busy exec_next) still (controls.inputs.trans alone)
      fun t ht => by
        rw [controls.params] at ht
        rw [port, answer_after]
        exact answers _ (by omega)
    exact ⟨u, (run_succ n next).trans run, busyAfter, by omega⟩

/-- PRIMEGEN `rd` of the reference parameters right after its acceptance, under cap 0 and a port that answers the draws
of `n` candidates and one witness each with 255. -/
def rejecting (rd : Reg) (n : Nat) : State :=
  { State.reset with port := { answers := List.replicate (130 * n) 255, drawn := 0 } }.accept (encode (.primegen rd)) []

theorem rejecting_inv (rd : Reg) (n : Nat) : (rejecting rd n).Inv :=
  accept_inv (withPort_inv resetMeetsTheInvariant _) (decodeOfEncodeIsIdentity (.primegen rd)) rfl

theorem rejecting_answer (rd : Reg) {n t : Nat} (h : t < 130 * n) : (rejecting rd n).port.answer t = 255 := by
  simp [rejecting, Port.answer, h]

/-- Settles O41: `rejecting rd n` runs on the listed answers alone (`uncapped_run_stays_busy`). -/
theorem uncappedPrimegenHasNoBound : Obligations.UncappedPrimegenHasNoBound := by
  intro n rd
  have inv := rejecting_inv rd n
  have decoded := decodeOfEncodeIsIdentity (.primegen rd)
  obtain ⟨t, run, busy, count⟩ :=
    uncapped_run_stays_busy n inv rfl decoded rfl rfl fun t ht => rejecting_answer rd ht
  exact ⟨rejecting rd n, t, _, inv, rfl, decoded, rfl, rfl, run, busy, count⟩

end Sys2Proof.Machine

/-! ## Scope: the extended Euclidean unit (43_euclid.md)

What the descent of EGCD computes, and what EGCD and MODINV commit or report (R150 to R154). -/

namespace Sys2Proof.Machine

/-! ### The descent (43_euclid.md R150) -/

theorem egcdLoop_succ (depth a : Nat) {b : Nat} (hb : b ≠ 0) : egcdLoop (depth + 1) a b =
    ((egcdLoop depth b (a % b)).1, (egcdLoop depth b (a % b)).2.2,
      (egcdLoop depth b (a % b)).2.1 - ((a / b : Nat) : Int) * (egcdLoop depth b (a % b)).2.2) := if_neg hb

/-- Every depth of at least the second argument gives the same result, since each level lowers that argument (R154). -/
theorem egcdLoop_eq_of_le {depth depth' a b : Nat} (enough : b ≤ depth) (enough' : b ≤ depth') :
    egcdLoop depth a b = egcdLoop depth' a b := by
  induction depth generalizing depth' a b with
  | zero => rw [Nat.le_zero.1 enough, egcdLoop_zero, egcdLoop_zero]
  | succ depth ih =>
    by_cases hb : b = 0
    · rw [hb, egcdLoop_zero, egcdLoop_zero]
    obtain ⟨depth', rfl⟩ := Nat.exists_eq_succ_of_ne_zero (show depth' ≠ 0 by omega)
    have lower := Nat.mod_lt a (Nat.pos_of_ne_zero hb)
    rw [egcdLoop_succ depth a hb, egcdLoop_succ depth' a hb, ih (depth' := depth') (by omega) (by omega)]

theorem egcd_zero (a : Nat) : egcd a 0 = ((a : Int), 1, 0) := egcdLoop_zero 1 a

theorem egcd_of_ne_zero (a : Nat) {b : Nat} (hb : b ≠ 0) : egcd a b = ((egcd b (a % b)).1, (egcd b (a % b)).2.2,
    (egcd b (a % b)).2.1 - ((a / b : Nat) : Int) * (egcd b (a % b)).2.2) := by
  have lower := Nat.mod_lt a (Nat.pos_of_ne_zero hb)
  have next : egcdLoop b b (a % b) = egcd b (a % b) := egcdLoop_eq_of_le lower.le (Nat.le_succ _)
  rw [egcd, egcdLoop_succ b a hb, next]

theorem egcd_fst (a b : Nat) : (egcd a b).1 = (Nat.gcd a b : Int) := by
  induction b, a using Nat.gcd.induction with
  | H0 a => rw [egcd_zero, Nat.gcd_zero_right]
  | H1 b a hb ih => rw [egcd_of_ne_zero a hb.ne', ih, Nat.gcd_comm b, ← Nat.gcd_rec, Nat.gcd_comm]

/-- Bézout's identity: the back-substitution turns `b·x1 + (a mod b)·y1` into `a·y1 + b·(x1 - floor(a / b)·y1)`. -/
theorem egcd_bezout (a b : Nat) : (a : Int) * (egcd a b).2.1 + (b : Int) * (egcd a b).2.2 = (egcd a b).1 := by
  induction b, a using Nat.gcd.induction with
  | H0 a => simp [egcd_zero]
  | H1 b a hb ih =>
    have division : ((a % b : Nat) : Int) + b * (a / b : Nat) = a := mod_cast Nat.mod_add_div a b
    rw [egcd_of_ne_zero a hb.ne', ← ih]
    linear_combination -(egcd b (a % b)).2.2 * division

/-- Settles O42: the depth bound of the loop is never reached (`egcdLoop_eq_of_le`), and the descent keeps the gcd and
Bézout's identity. -/
theorem egcdIsTheDescentAndMeetsItsContract : Obligations.EgcdIsTheDescentAndMeetsItsContract :=
  ⟨egcd_zero, fun a _ hb => egcd_of_ne_zero a hb, fun a b => ⟨egcd_fst a b, egcd_bezout a b⟩⟩

/-- Settles O43: the bounds hold at every depth of the descent (`egcdLoop_natAbs_le`). -/
theorem egcdCoefficientsAreBounded : Obligations.EgcdCoefficientsAreBounded := by
  intro a b
  obtain ⟨-, x_le, y_le⟩ := egcdLoop_natAbs_le (b + 1) a b
  exact ⟨max_comm b 1 ▸ x_le, max_comm a 1 ▸ y_le⟩

/-! ### EGCD and MODINV (43_euclid.md R151, R152) -/

/-- EGCD of nonnegative integers, as the two commands call it. -/
theorem egcd_toNat {a b : Int} (ha : 0 ≤ a) (hb : 0 ≤ b) :
    (egcd a.toNat b.toNat).1 = (Int.gcd a b : Int) ∧
      a * (egcd a.toNat b.toNat).2.1 + b * (egcd a.toNat b.toNat).2.2 = (egcd a.toNat b.toNat).1 := by
  lift a to ℕ using ha
  lift b to ℕ using hb
  exact ⟨egcd_fst a b, egcd_bezout a b⟩

theorem wf_egcd_iff (rd rd2 rd3 rs1 rs2 : Reg) :
    (Instr.egcd rd rd2 rd3 rs1 rs2).wf = true ↔ ¬ (rd = rd2 ∨ rd = rd3 ∨ rd2 = rd3) := by
  simp [Instr.wf, and_assoc]

section
variable {rd rd2 rd3 : Reg} {a b m : Int}

theorem egcdResult_of_neg (distinct : ¬ (rd = rd2 ∨ rd = rd3 ∨ rd2 = rd3)) (h : a < 0 ∨ b < 0) :
    egcdResult rd rd2 rd3 a b = .error .domain := by
  rw [egcdResult, if_neg distinct, ← ite_or, if_pos h]

theorem egcdResult_of_nonneg (distinct : ¬ (rd = rd2 ∨ rd = rd3 ∨ rd2 = rd3)) (ha : 0 ≤ a) (hb : 0 ≤ b) :
    egcdResult rd rd2 rd3 a b = .ok [(rd, (egcd a.toNat b.toNat).1), (rd2, (egcd a.toNat b.toNat).2.1),
      (rd3, (egcd a.toNat b.toNat).2.2)] := by
  rw [egcdResult, if_neg distinct, if_neg ha.not_gt, if_neg hb.not_gt]

theorem modinvResult_of_neg (h : a < 0 ∨ m < 0) : modinvResult rd a m = .error .domain := by
  rw [modinvResult, ← ite_or, if_pos h]

theorem modinvResult_zero (ha : 0 ≤ a) : modinvResult rd a 0 = .error .divZero := by
  rw [modinvResult, if_neg ha.not_gt, if_neg (lt_irrefl 0), if_pos rfl]

theorem modinvResult_of_pos (ha : 0 ≤ a) (hm : 0 < m) : modinvResult rd a m =
    if (Int.gcd a m : Int) ≠ 1 then .error .noInverse else .ok [(rd, (egcd a.toNat m.toNat).2.1 % m)] := by
  obtain ⟨gcd, -⟩ := egcd_toNat ha hm.le
  rw [modinvResult, if_neg ha.not_gt, if_neg hm.not_gt, if_neg hm.ne', ← gcd]

/-- The normalised coefficient is the inverse modulo `m`: Bézout's identity modulo `m` (R152). -/
theorem mul_egcd_emod_emod (ha : 0 ≤ a) (hm : 2 ≤ m) (coprime : Int.gcd a m = 1) :
    a * ((egcd a.toNat m.toNat).2.1 % m) % m = 1 := by
  obtain ⟨gcd, bezout⟩ := egcd_toNat ha (show 0 ≤ m by omega)
  rw [gcd, coprime] at bezout
  calc a * ((egcd a.toNat m.toNat).2.1 % m) % m
    _ = a * (egcd a.toNat m.toNat).2.1 % m := (Int.mod_modEq _ m).mul_left a
    _ = (a * (egcd a.toNat m.toNat).2.1 + m * (egcd a.toNat m.toNat).2.2) % m := (Int.add_mul_emod_self_left ..).symm
    _ = 1 % m := congrArg (· % m) bezout
    _ = 1 := Int.emod_eq_of_lt one_pos.le (by omega)

end

/-- Settles O44: EGCD stages the three values of the descent, which meet its contract (`egcd_toNat`), and coinciding
destinations are rejected at acceptance (O18). -/
theorem egcdCommitsGcdAndCoefficients : Obligations.EgcdCommitsGcdAndCoefficients := by
  intro s rd rd2 rd3 rs1 rs2 inv i a b e
  have distinct := (wf_egcd_iff rd rd2 rd3 rs1 rs2).1
  have result {r : Except ErrorCode (List (Reg × Int))} (hr : egcdResult rd rd2 rd3 a b = r) :
      (s.turn i).result = some r := congrArg some hr
  refine ⟨rfl, encode_and_mask (row := ⟨.egcd, 0x00000030, 0x00F000FF⟩) (by decide)
    (opcodeField_formatR 0x30 rd rs1 rs2 0 rd2 rd3).symm, fun coincide idle => ?_, fun wf neg => ?_,
    fun wf ha hb => ?_⟩
  · obtain ⟨coinciding, -⟩ := coincidingDestinationsAreRejectedAtAcceptance.2 s i idle
    exact coinciding ((wf_eq_false_iff i).2 (.inr ⟨rd, rd2, rd3, rs1, rs2, rfl, coincide⟩))
  · exact exec_endedWith (result (egcdResult_of_neg (distinct wf) neg))
  · obtain ⟨t, next, committed⟩ := exec_commits inv (result (egcdResult_of_nonneg (distinct wf) ha hb))
    exact ⟨t, next, committed, egcd_toNat ha hb⟩

/-- Settles O45: after its checks MODINV stages the residue of the coefficient, which is the inverse
(`mul_egcd_emod_emod`). -/
theorem modinvCommitsTheInverse : Obligations.ModinvCommitsTheInverse := by
  intro s rd rs1 rs2 inv i a m
  have result {r : Except ErrorCode (List (Reg × Int))} (hr : modinvResult rd a m = r) :
      (s.turn i).result = some r := congrArg some hr
  refine ⟨rfl, encode_and_mask (row := ⟨.modinv, 0x00000031, 0xFFF000FF⟩) (by decide)
    (opcodeField_formatR 0x31 rd rs1 rs2 0 0 0).symm, fun neg => ?_, fun ha hm => ?_, fun ha hm common => ?_,
    fun ha hm coprime => ?_⟩
  · exact exec_endedWith (result (modinvResult_of_neg neg))
  · exact exec_endedWith (result (hm ▸ modinvResult_zero ha))
  · exact exec_endedWith (result ((modinvResult_of_pos ha hm).trans (if_pos (mod_cast common))))
  · have staged := (modinvResult_of_pos (rd := rd) ha hm).trans (if_neg (by simp [coprime]))
    obtain ⟨t, next, committed⟩ := exec_commits inv (result staged)
    exact ⟨_, t, next, committed, rfl, Int.emod_nonneg _ (by omega), Int.emod_lt_of_pos _ hm,
      fun two_le => mul_egcd_emod_emod ha two_le coprime⟩

end Sys2Proof.Machine

/-! ## Scope: errors and the interrupt (60_exceptions.md)

Every error ends in `State.raise`, at the CMD write itself (R163) or at the command's engine step (R161, R162), and the
interrupt is IE and DONE (R168). -/

namespace Sys2Proof.Machine

/-! ### Words rejected at acceptance (R163) -/

section
variable {s : State} {w : Word}

/-- A CMD write whose word is rejected leaves the engine idle and `k` as it was. -/
theorem stepOn_write_cmd_rejected {c : ErrorCode} (issued : s.issue w = s.raise c w) :
    ∃ t, stepOn (.write .w32 0x014 w) s = .next t ∧ t.busy = false ∧ t.candidates = s.candidates ∧
      EndedWith s t c w s.port :=
  ⟨s.raise c w, (stepOn_write_cmd s w).trans (congrArg _ issued), rfl, rfl, raise_endedWith s c w⟩

/-- A word that no acceptance lets through is rejected with one of the two acceptance errors. -/
theorem issue_rejected (idle : s.engine = .idle) (bad : ∀ i, decode w = .ok i → i.wf = false) :
    ∃ c, s.issue w = s.raise c w := by
  cases decoded : decode w with
  | error e => exact ⟨.illegal, issue_illegal idle decoded⟩
  | ok i => exact ⟨.operand, issue_coinciding idle decoded (bad i decoded)⟩

end

/-- Settles O17: the decoder's errors come before the check of the destinations, and either is raised by the write
(`stepOn_write_cmd_rejected`). -/
theorem acceptanceTimeErrorsNeverMakeTheEngineBusy : Obligations.AcceptanceTimeErrorsNeverMakeTheEngineBusy := by
  refine fun s idle => ⟨fun w e illegal => ?_, fun w i decoded coincide => ?_, ?_⟩
  · exact stepOn_write_cmd_rejected (issue_illegal idle illegal)
  · exact stepOn_write_cmd_rejected (issue_coinciding idle decoded coincide)
  · have illegal : decode 0x33121330 = .error .unusedField := by decide
    obtain ⟨t, write, -, -, ended⟩ := stepOn_write_cmd_rejected (issue_illegal idle illegal)
    exact ⟨t, write, ended⟩

/-! ### Errors of an engine step (R161, R162) -/

section
variable {i : Instr} {s t : State}

/-- What an engine step answers is one of the three ends of its command. -/
theorem ended_of_exec (next : exec i s = .next t) :
    ∃ k p, Ended i s { s with candidates := k, port := p } t := by
  obtain ⟨k, p, t', next', -, -, -, ended⟩ := exec_cases i s
  cases next'.symm.trans next
  exact ⟨k, p, ended⟩

/-- Of the three ends only one leaves an error: the end with an error the command may report. -/
theorem exec_error {code : ErrorCode} (next : exec i s = .next t) (error : t.error = some code) :
    mayReport code i = true ∧ EndedWith s t code (s.commandWord i) t.port := by
  obtain ⟨k, p, ended⟩ := ended_of_exec next
  cases ended with
  | committed ws _ _ eq => subst eq; cases error
  | failed code' may eq =>
    subst eq
    cases error
    exact ⟨may, endedWith_of_turn (raise_endedWith _ code _)⟩
  | goesOn _ _ _ eq => subst eq; cases error

/-- DIVMOD and EGCD check their destinations before their operands (log entry 14). -/
theorem turn_of_coinciding (coincide : i.wf = false) :
    s.turn i = ⟨s.candidates, s.port, some (.error .operand)⟩ := by
  rcases (wf_eq_false_iff i).1 coincide with ⟨rd, rs1, rs2, rfl⟩ | ⟨rd, rd2, rd3, rs1, rs2, rfl, equal⟩
  · exact congrArg s.plainTurn (if_pos rfl)
  · exact congrArg s.plainTurn (if_pos equal)

end

/-- The error numbers run from 1 to 7 (R161). -/
theorem number_range (code : ErrorCode) : code.number.toNat ≤ 7 ∧ code.number ≠ 0 := by
  cases code <;> decide

theorem errcode_range (s : State) : s.errcode.toNat ≤ 7 ∧ (s.errcode = 0 ↔ s.err = false) := by
  cases error : s.error with
  | none => simp [State.errcode, State.err, error]
  | some code => simpa [State.errcode, State.err, error] using number_range code

/-- Settles O46: the error end of an engine step is `State.raise` (`exec_error`). -/
theorem failingCommandRecordsItsErrorOnly : Obligations.FailingCommandRecordsItsErrorOnly :=
  fun _ _ _ _ next error => (exec_error next error).2

/-- Settles O47: an engine step ends only with an error its command may report (`exec_error`), and with E_OPERAND where
destinations coincide (`turn_of_coinciding`). -/
theorem errorsComeFromTheCommandsThatMayReportThem : Obligations.ErrorsComeFromTheCommandsThatMayReportThem :=
  ⟨fun _ _ _ _ next error => (exec_error next error).1,
    fun _ _ coincide => exec_endedWith_of_turn (turn_of_coinciding coincide),
    errcode_range, rfl, rfl, rfl, rfl, rfl, rfl, rfl⟩

/-! ### The interrupt (R168) -/

section
variable {s t : State}

theorem irq_of_done (done : s.done = true) : s.irq = s.ie := by
  rw [State.irq, done, Bool.and_true]

theorem irq_of_not_done (notDone : s.done = false) : s.irq = false := by
  rw [State.irq, notDone, Bool.and_false]

theorem irq_of_not_enabled (notEnabled : s.ie = false) : s.irq = false := by
  rw [State.irq, notEnabled, Bool.false_and]

/-- A command that does not stay in progress leaves DONE 1 (10_state.md R27). -/
theorem exec_done {i : Instr} (next : exec i s = .next t) (idle : t.busy = false) : t.done = true := by
  obtain ⟨k, p, ended⟩ := ended_of_exec next
  cases ended with
  | committed _ _ _ eq => subst eq; rfl
  | failed _ _ eq => subst eq; rfl
  | goesOn _ _ _ eq => subst eq; cases idle

end

/-- Settles O59: every end of a command sets DONE and keeps IE, and each of the other events clears DONE or IE. -/
theorem interruptFollowsEnableAndDone : Obligations.InterruptFollowsEnableAndDone := by
  refine ⟨fun s => Bool.and_eq_true_iff, fun i s t next idle => ?_, fun s w idle bad => ?_, fun s v clear => ?_,
    fun s v disable => ?_, fun s i idle wf => ?_, fun s => ?_⟩
  · obtain ⟨controls, -⟩ := commandsChangeNothingElse i s t next
    exact (irq_of_done (exec_done next idle)).trans controls.ie
  · obtain ⟨c, rejected⟩ := issue_rejected idle bad
    obtain ⟨t, write, -, -, ended⟩ := stepOn_write_cmd_rejected rejected
    exact ⟨t, write, (irq_of_done ended.done).trans ended.controls.ie⟩
  · obtain ⟨-, -, -, t, write, done, -⟩ := statusReadsItsFieldsAndClearsByOne s v
    exact ⟨t, write, irq_of_not_done (by simp [done, clear])⟩
  · obtain ⟨-, resets, stores⟩ := controlWritesStoreIeOrReset s v
    cases srst : v.getLsbD 1 with
    | true =>
      obtain ⟨t, write, table⟩ := resets srst
      exact ⟨t, write, table.irq⟩
    | false =>
      obtain ⟨t, write, ie, -⟩ := stores srst
      exact ⟨t, write, irq_of_not_enabled (ie.trans disable)⟩
  · obtain ⟨-, -, accepted⟩ := acceptanceLatchesTheCommand.1 s (encode i) idle
    obtain ⟨t, l, write, -, -, -, -, -, done, -⟩ := accepted i (decodeOfEncodeIsIdentity i) wf
    exact ⟨t, write, irq_of_not_done done⟩
  · exact ⟨s.resetNte, stepOn_reset s, (resetNte_atReset s).irq⟩

end Sys2Proof.Machine

/-! ## Scope: reset and hazards (70_reset_and_hazards.md)

Both resets are `State.resetNte` (R190). While a command is in progress the host reaches neither the command nor its
latched inputs (R196, R198), and each engine step ends the command or, for PRIMEGEN, tests one more candidate (R200). -/

namespace Sys2Proof.Machine

/-! ### Resets (R190) -/

/-- A CTRL write with SRST set does what the reset input does, whatever its other bits. -/
theorem stepOn_write_srst (s : State) {v : Word} (srst : v.getLsbD 1 = true) :
    stepOn (.write .w32 0x00C v) s = .next s.resetNte :=
  (stepOn_write_aligned s rfl v).trans (congrArg _ ((memWrite_ctrl s v).trans (if_pos srst)))

/-- Settles O10: both resets answer `State.resetNte`, whose engine is idle, so it accepts a command (O16). -/
theorem bothResetsReachTheTable : Obligations.BothResetsReachTheTable := by
  intro s v srst
  refine ⟨s.resetNte, stepOn_reset s, stepOn_write_srst s srst, resetNte_atReset s, rfl, fun i wf => ?_⟩
  obtain ⟨-, -, accepted⟩ := acceptanceLatchesTheCommand.1 s.resetNte (encode i) rfl
  obtain ⟨u, l, write, busy, word, -⟩ := accepted i (decodeOfEncodeIsIdentity i) wf
  exact ⟨u, l, write, busy, word⟩

/-- Settles O11: `State.resetNte` puts back the port, the coming events and the word last read. -/
theorem resetLeavesWhatIsOutsideTheEngine : Obligations.ResetLeavesWhatIsOutsideTheEngine :=
  fun s => ⟨s.resetNte, stepOn_reset s, resetNte_port s, resetNte_inputs s, resetNte_lastRead s⟩

/-! ### Host accesses while busy (R196, R198, R200) -/

/-- Settles O19: a CMD write is an issue of its word, which a busy engine drops. -/
theorem commandWriteWhileBusyIsDropped : Obligations.CommandWriteWhileBusyIsDropped :=
  fun s _ w busy => ⟨_, (stepOn_write_cmd s w).trans (congrArg _ (issue_busy busy w)), rfl, busy, rfl⟩

section
variable {s t : State} {l : Latch}

theorem hostRead_eq_next {width : Width} {offset : Offset} (h : hostRead width offset s = .next t) :
    t = { s with lastRead := some (s.memRead offset) } := by
  unfold hostRead at h
  split at h
  · cases h; rfl
  · cases h

/-- While a command is in progress, of all host writes only a soft reset reaches the engine and `k`. -/
theorem writeReg_busy_keeps_command (busy : s.engine = .busy l) {r : WindowReg} {v : Word}
    (noReset : ¬ (r = .ctrl ∧ v.getLsbD 1 = true)) :
    (s.writeReg r v).engine = .busy l ∧ (s.writeReg r v).candidates = s.candidates := by
  cases r with
  | ctrl =>
    have stores : s.writeReg .ctrl v = { s with ie := v.getLsbD 0 } := if_neg fun srst => noReset ⟨rfl, srst⟩
    rw [stores]
    exact ⟨busy, rfl⟩
  | cmd =>
    have dropped : s.writeReg .cmd v = { s with cmdovr := true } := issue_busy busy v
    rw [dropped]
    exact ⟨busy, rfl⟩
  | _ => exact ⟨busy, rfl⟩

/-- A write to a limb, SIGN or PGCAP leaves the parameters, the port and `k` alone. -/
theorem writeReg_operandWindow_frame (s : State) {r : WindowReg} (h : isOperandWindow r = true) (v : Word) :
    (s.writeReg r v).params = s.params ∧ (s.writeReg r v).port = s.port ∧
      (s.writeReg r v).candidates = s.candidates := by
  cases r with
  | limb i j => exact ⟨rfl, rfl, rfl⟩
  | sign => exact ⟨rfl, rfl, rfl⟩
  | pgcap => exact ⟨rfl, rfl, rfl⟩
  | _ => cases h

/-- The latch of a state of the invariant holds exactly the sources of the command in progress. -/
theorem sources_of_latch (inv : s.Inv) (busy : s.engine = .busy l) {i : Instr} (decoded : decode l.word = .ok i) :
    sourcesOf i = l.sources.map Prod.fst := by
  obtain ⟨j, decoded', -, sources⟩ := (inv.latch l busy).command
  cases decoded.symm.trans decoded'
  exact sources.symm

end

/-- Settles O50: the write leaves what decides the result (O49), and an end with an error changes no register
(`exec_error`). -/
theorem hostWritesWhileBusyDoNotReachTheCommand : Obligations.HostWritesWhileBusyDoNotReachTheCommand := by
  intro s l i offset v inv busy decoded aligned window
  have busy' : (s.memWrite offset v).engine = .busy l := (writeReg_operandWindow_engine s window v).trans busy
  obtain ⟨params, port, candidates⟩ := writeReg_operandWindow_frame s window v
  refine ⟨s.memWrite offset v, stepOn_write_aligned s aligned v, busy', fun t t' next next' => ?_⟩
  obtain ⟨error, engine, -, port', candidates', dests⟩ := latchedInputsDecideTheResult i s (s.memWrite offset v) t t' l
    busy busy' (sources_of_latch inv busy decoded) params port candidates next next'
  refine ⟨error, engine, port', candidates', dests, fun failed => ?_⟩
  obtain ⟨code, reported⟩ := Option.ne_none_iff_exists'.1 failed
  exact (exec_error next' (error.trans reported)).2.kept

/-! ### Engine steps (R200) -/

/-- An engine step ends the command, or it is PRIMEGEN's and the command goes on. -/
theorem ended_idle_or_goesOn {i : Instr} {s s' t : State} (h : Ended i s s' t) :
    (t.busy = false ∧ t.done = true) ∨ ((∃ rd, i = .primegen rd) ∧ t.busy = true ∧ t.done = false) := by
  cases h with
  | committed ws _ _ eq => subst eq; exact .inl ⟨rfl, rfl⟩
  | failed code _ eq => subst eq; exact .inl ⟨rfl, rfl⟩
  | goesOn rd isPrimegen _ eq => subst eq; exact .inr ⟨⟨rd, isPrimegen⟩, rfl, rfl⟩

/-- Settles O20: only PRIMEGEN can go on after an engine step (`ended_idle_or_goesOn`), each of its steps counts one
candidate, and between engine steps the host does not reach the command (`writeReg_busy_keeps_command`). -/
theorem everyCommandTakesOneEngineStep : Obligations.EveryCommandTakesOneEngineStep := by
  refine ⟨fun i s other => ?_, fun rd s => ?_, fun s t l e busy next access => ?_⟩
  · obtain ⟨k, p, t, next, -, -, -, ended⟩ := exec_cases i s
    refine ⟨t, next, (ended_idle_or_goesOn ended).resolve_right ?_⟩
    rintro ⟨⟨rd, isPrimegen⟩, -⟩
    exact other rd isPrimegen
  · obtain ⟨k, p, t, next, -, -, counts, ended⟩ := exec_cases (.primegen rd) s
    obtain ⟨-, -, -, -, candidates⟩ := ended_frame ended
    exact ⟨t, next, candidates.trans (counts ⟨rd, rfl⟩), (ended_idle_or_goesOn ended).imp_right And.right⟩
  · rcases access with ⟨width, offset, rfl⟩ | ⟨width, offset, v, rfl, noReset⟩
    · rw [stepOn_read] at next
      rw [hostRead_eq_next next]
      exact ⟨busy, rfl⟩
    · rw [stepOn_write] at next
      rw [hostWrite_eq_next next]
      exact writeReg_busy_keeps_command busy noReset

end Sys2Proof.Machine
